-- ==== Sys2Proof/Word.lean ====
section
/-! DEFINITION. The word types of the SysEx codec block: bytes, byte sequences in wire order, 32-bit words. -/

namespace Sys2Proof

/-- A byte, 8 bits, 0x00 to 0xFF (00_scope.md R9). -/
abbrev Byte := BitVec 8

/-- A byte sequence in wire order, index 0 first (00_scope.md R10, 20_memory.md R28). -/
abbrev Bytes := List Byte

/-- The 32-bit unsigned words of the command interface: `CW`, `A`, `B`, `RV` (10_state.md R21, R22). -/
abbrev Word := BitVec 32

end Sys2Proof
end

