-- ==== Sys2Proof/Config.lean ====
section
/-! DEFINITION. The implementation parameters of 00_scope.md R7: their types, their defaults, the constants without a
body that stand for the `OPEN` ones, and what makes a configuration well-formed (10_state.md R20). -/

namespace Sys2Proof

/-- The parameters of 00_scope.md R7, fixed when the block is constructed (10_state.md R19). A block's configuration
is a field of its state that no step writes, so a statement about every state quantifies over every parameter. -/
structure Config where
  /-- `MODEL_ID`, the model id of the RQ1 and DT1 frames; 4 or 5 bytes of at most 0x7F (R20). -/
  modelId : Bytes
  /-- `SETUP_BASE`. -/
  setupBase : BitVec 28
  /-- `COLOR_TABLE_BASE`, relative to the setup base. -/
  colorTableBase : BitVec 28
  /-- `COLOR_TABLE_STEP`, per palette slot. -/
  colorTableStep : BitVec 28
  /-- `COLOR_RGB_OFFSET`, relative to a slot's base. -/
  colorRgbOffset : BitVec 28
  /-- `USER_PALETTE_SLOT_INDEX[0..4]`, unsigned and without a width. -/
  userPaletteSlotIndex : Vector Nat 5
  /-- `RESTART_ON_F0` (43_frameassembler.md R80). -/
  restartOnF0 : Bool
  /-- `CHECK_INTERIOR` (43_frameassembler.md R83). -/
  checkInterior : Bool
  /-- `BUF_CAP`; `none` is the unbounded buffer (43_frameassembler.md R85). -/
  bufCap : Option Nat
  /-- `S_MAX`, the longest byte operand (10_state.md R21). -/
  sMax : Nat
  deriving DecidableEq, Repr

namespace Config

/-- The part of `S_MAX` that the spec leaves `OPEN` (00_scope.md R7, 92_eei_decisions.md D35): a constant without a
body, what `S_MAX` of the constructed block has above the 16 that R20 asks for. Assumption 2. -/
opaque openSMax : Nat

/-- `USER_PALETTE_SLOT_INDEX[1..4]`, which the spec leaves `OPEN` (00_scope.md R7, 92_eei_decisions.md D8): constants
without a body. Below 0xEFFF8 is exactly the condition of 10_state.md R20 beside the other defaults. Assumption 2. -/
opaque openSlot : Fin 4 → Fin 0xEFFF8

/-- The defaults of 00_scope.md R7. -/
def default : Config where
  modelId := [0x00, 0x00, 0x00, 0x00, 0x16]
  setupBase := 0x01000000
  colorTableBase := 0x0800
  colorTableStep := 0x0100
  colorRgbOffset := 0x10
  userPaletteSlotIndex := #v[10, (openSlot 0).val, (openSlot 1).val, (openSlot 2).val, (openSlot 3).val]
  restartOnF0 := false
  checkInterior := false
  bufCap := none
  sMax := openSMax + 16

/-- The address of 10_state.md R20's last condition for one palette slot id, as R20 writes it. -/
def slotAddress (c : Config) (slot : Nat) : Nat :=
  c.setupBase.toNat + c.colorTableBase.toNat + slot * c.colorTableStep.toNat + c.colorRgbOffset.toNat

/-- 10_state.md R20: when a configuration is well-formed. "A model is built only over well-formed configurations." -/
def wellFormed (c : Config) : Bool :=
  c.modelId.all (fun x => x.toNat ≤ 0x7F)
    && (c.modelId.length == 4 || c.modelId.length == 5)
    && decide (16 ≤ c.sMax)
    && c.userPaletteSlotIndex.toList.all (fun slot => c.slotAddress slot < 2 ^ 28)

end Config

end Sys2Proof
end

