-- ==== Sys2Proof/Syntax.lean ====
section
/-! DEFINITION. The twelve commands of 30_encoding.md R42, each with exactly the operands its rule names. -/

namespace Sys2Proof

/-- One constructor per row of the opcode table. A constructor carries the fields of `CW` and the operands
`A`, `B`, `S` that the command's rule uses, and nothing it ignores (10_state.md R21: "A command whose rule does
not name an operand ignores it"; 30_encoding.md R40: the same of the fields of `CW`). Assumption 7. -/
inductive Instr where
  /-- PACK7 (40_bytecodec.md R57): `A`. -/
  | pack7 (a : Word)
  /-- NIBSPLIT (R58): `A`. -/
  | nibSplit (a : Word)
  /-- PACKRUNS (R59): the group width `G`, the group count `W`, and `A`. -/
  | packRuns (g w : BitVec 4) (a : Word)
  /-- UNPACK128 (R61): `S`. -/
  | unpack128 (bytes : Bytes)
  /-- CHECKSUM (R64): `S`. -/
  | checksum (bytes : Bytes)
  /-- ENCCOLOR (R65): `S`. -/
  | encColor (bytes : Bytes)
  /-- ADDRUC (41_addressspace.md R68): `B`. -/
  | addrUc (b : Word)
  /-- BUILDRQ1 (42_messagebuilder.md R71): `DV`, `DEV`, the address `A`, the size `B`. -/
  | buildRq1 (dv : Bool) (dev : BitVec 7) (a b : Word)
  /-- BUILDDT1 (R72): `DV`, `DEV`, the address `A`, the data `S`. -/
  | buildDt1 (dv : Bool) (dev : BitVec 7) (a : Word) (bytes : Bytes)
  /-- BUILDIDREQ (R73): no operand. -/
  | buildIdReq
  /-- FEED (43_frameassembler.md R76): the fragment `S`. -/
  | feed (bytes : Bytes)
  /-- DECODEID (R88): the frame `S`. -/
  | decodeId (bytes : Bytes)
  deriving DecidableEq, Repr

end Sys2Proof
end

