-- ==== Sys2Proof/WellFormed.lean ====
section
/-! DEFINITION. When a command's operands are in the ranges its rule gives, so that no check of its own answers
ILLEGAL_COMMAND (60_exceptions.md R92), and when its byte operand fits the block (10_state.md R21). -/

namespace Sys2Proof

namespace Instr

/-- The operand ranges of PACKRUNS (40_bytecodec.md R59), UNPACK128 (R61) and ENCCOLOR (R65). The other commands have
none: every value of their operands is a legal spelling, if not always a successful one. -/
def wellFormed : Instr → Bool
  | .pack7 _ => true
  | .nibSplit _ => true
  | .packRuns g w _ => decide (1 ≤ g.toNat ∧ g.toNat ≤ 8 ∧ 1 ≤ w.toNat ∧ w.toNat ≤ 8)
  | .unpack128 bytes => decide (bytes.length ≤ 4)
  | .checksum _ => true
  | .encColor bytes => decide (bytes.length = 3)
  | .addrUc _ => true
  | .buildRq1 _ _ _ _ => true
  | .buildDt1 _ _ _ _ => true
  | .buildIdReq => true
  | .feed _ => true
  | .decodeId _ => true

/-- The byte operand `S` of a command; empty for a command that takes none. -/
def byteOperand : Instr → Bytes
  | .pack7 _ => []
  | .nibSplit _ => []
  | .packRuns _ _ _ => []
  | .unpack128 bytes => bytes
  | .checksum bytes => bytes
  | .encColor bytes => bytes
  | .addrUc _ => []
  | .buildRq1 _ _ _ _ => []
  | .buildDt1 _ _ _ bytes => bytes
  | .buildIdReq => []
  | .feed bytes => bytes
  | .decodeId bytes => bytes

/-- A command a block of this configuration takes as legal: well-formed, and `S` no longer than `S_MAX`
(10_state.md R21). -/
def wellFormedFor (c : Config) (i : Instr) : Bool :=
  i.wellFormed && decide (i.byteOperand.length ≤ c.sMax)

end Instr

end Sys2Proof
end

