-- ==== Sys2Proof/Decode.lean ====
section
/-! DEFINITION. The command word (30_encoding.md sections 1 to 3): its fields, the opcode map, the decoder, and the
encoder written from the same tables. -/

namespace Sys2Proof

/-- What one command carries (10_state.md R21). -/
structure Command where
  /-- `CW`, the command word (30_encoding.md R40). -/
  cw : Word
  /-- `A`, the first value operand. -/
  a : Word
  /-- `B`, the second value operand. -/
  b : Word
  /-- `S`, the byte operand. -/
  bytes : Bytes
  deriving DecidableEq, Repr

/-- The mnemonics of 30_encoding.md R42. -/
inductive Op where
  | pack7 | nibSplit | packRuns | unpack128 | checksum | encColor | addrUc
  | buildRq1 | buildDt1 | buildIdReq | feed | decodeId
  deriving DecidableEq, Repr

/-- Why a command word names no command. Both complete with ILLEGAL_COMMAND (60_exceptions.md R92). -/
inductive DecodeError where
  /-- `RSVD != 0` (30_encoding.md R41). -/
  | reservedBits
  /-- `OP` is not in the opcode map (30_encoding.md R43). -/
  | reservedOpcode
  deriving DecidableEq, Repr

/-- What the decoder answers: a command, or the reason there is none. -/
inductive Decoded where
  | instr (i : Instr)
  | illegal (why : DecodeError)
  deriving DecidableEq, Repr

/-- The opcode numbers of 30_encoding.md R42. -/
def Op.code : Op → BitVec 8
  | .pack7 => 0x01
  | .nibSplit => 0x02
  | .packRuns => 0x03
  | .unpack128 => 0x04
  | .checksum => 0x05
  | .encColor => 0x06
  | .addrUc => 0x08
  | .buildRq1 => 0x11
  | .buildDt1 => 0x12
  | .buildIdReq => 0x13
  | .feed => 0x20
  | .decodeId => 0x21

/-- The rows of 30_encoding.md R42, in its order. -/
def Op.table : List Op :=
  [.pack7, .nibSplit, .packRuns, .unpack128, .checksum, .encColor, .addrUc,
    .buildRq1, .buildDt1, .buildIdReq, .feed, .decodeId]

/-- The command an `OP` value selects; `none` is a reserved opcode (30_encoding.md R43). -/
def Op.ofCode (code : BitVec 8) : Option Op :=
  Op.table.find? (fun op => op.code == code)

/-- `OP = CW[7:0]` (30_encoding.md R40). -/
def fieldOp (cw : Word) : BitVec 8 := cw.extractLsb' 0 8

/-- `G = CW[11:8]`, the group width (30_encoding.md R40, R44). -/
def fieldG (cw : Word) : BitVec 4 := cw.extractLsb' 8 4

/-- `W = CW[15:12]`, the number of groups (30_encoding.md R40, R44). -/
def fieldW (cw : Word) : BitVec 4 := cw.extractLsb' 12 4

/-- `DEV = CW[22:16]`, the device id (30_encoding.md R40, R44). -/
def fieldDev (cw : Word) : BitVec 7 := cw.extractLsb' 16 7

/-- `DV = CW[23]`, whether the device id is resolved (30_encoding.md R40, R44). -/
def fieldDv (cw : Word) : Bool := cw.getLsbD 23

/-- `RSVD = CW[31:24]`, reserved (30_encoding.md R40, R41). -/
def fieldRsvd (cw : Word) : BitVec 8 := cw.extractLsb' 24 8

/-- The command of mnemonic `op` that these command fields spell: the operands its rule names, taken as they stand
(30_encoding.md R44); everything else of the command is ignored (30_encoding.md R40, 10_state.md R21). -/
def Op.withOperands (op : Op) (c : Command) : Instr :=
  match op with
  | .pack7 => .pack7 c.a
  | .nibSplit => .nibSplit c.a
  | .packRuns => .packRuns (fieldG c.cw) (fieldW c.cw) c.a
  | .unpack128 => .unpack128 c.bytes
  | .checksum => .checksum c.bytes
  | .encColor => .encColor c.bytes
  | .addrUc => .addrUc c.b
  | .buildRq1 => .buildRq1 (fieldDv c.cw) (fieldDev c.cw) c.a c.b
  | .buildDt1 => .buildDt1 (fieldDv c.cw) (fieldDev c.cw) c.a c.bytes
  | .buildIdReq => .buildIdReq
  | .feed => .feed c.bytes
  | .decodeId => .decodeId c.bytes

/-- The decoder, total on every command: the reserved field first, then the opcode (60_exceptions.md R98 items 2, 3). -/
def decode (c : Command) : Decoded :=
  if fieldRsvd c.cw ≠ 0 then .illegal .reservedBits
  else match Op.ofCode (fieldOp c.cw) with
    | none => .illegal .reservedOpcode
    | some op => .instr (op.withOperands c)

/-- The host's reading of a table word: one 32-bit `CW` whose bits above `nbits` are 0, with operands of zeros
(`A = B = 0`, `S` empty). The block stores no command word anywhere (10_state.md R26), so there is no byte order to
lay it out in. Assumption 1. -/
def tableCommand (nbits w : Nat) : Command where
  cw := BitVec.ofNat 32 (w % 2 ^ nbits)
  a := 0
  b := 0
  bytes := []

/-- The instruction the decoder reads from a word of the opcode table. -/
def decodeTableWord (nbits w : Nat) : Option Instr :=
  match decode (tableCommand nbits w) with
  | .instr i => some i
  | .illegal _ => none

/-! ### The encoder -/

/-- The mnemonic of a command. -/
def Instr.op : Instr → Op
  | .pack7 _ => .pack7
  | .nibSplit _ => .nibSplit
  | .packRuns _ _ _ => .packRuns
  | .unpack128 _ => .unpack128
  | .checksum _ => .checksum
  | .encColor _ => .encColor
  | .addrUc _ => .addrUc
  | .buildRq1 _ _ _ _ => .buildRq1
  | .buildDt1 _ _ _ _ => .buildDt1
  | .buildIdReq => .buildIdReq
  | .feed _ => .feed
  | .decodeId _ => .decodeId

/-- A command word from its six fields, the most significant first (30_encoding.md R40). -/
def packWord (rsvd : BitVec 8) (dv : Bool) (dev : BitVec 7) (w g : BitVec 4) (op : BitVec 8) : Word :=
  rsvd ++ (BitVec.ofBool dv ++ (dev ++ (w ++ (g ++ op))))

/-- The command word of an instruction: `RSVD` and every field its rule does not use are 0 (30_encoding.md R40, R52). -/
def encodeWord (i : Instr) : Word :=
  match i with
  | .packRuns g w _ => packWord 0 false 0 w g i.op.code
  | .buildRq1 dv dev _ _ => packWord 0 dv dev 0 0 i.op.code
  | .buildDt1 dv dev _ _ => packWord 0 dv dev 0 0 i.op.code
  | .pack7 _ => packWord 0 false 0 0 0 i.op.code
  | .nibSplit _ => packWord 0 false 0 0 0 i.op.code
  | .unpack128 _ => packWord 0 false 0 0 0 i.op.code
  | .checksum _ => packWord 0 false 0 0 0 i.op.code
  | .encColor _ => packWord 0 false 0 0 0 i.op.code
  | .addrUc _ => packWord 0 false 0 0 0 i.op.code
  | .buildIdReq => packWord 0 false 0 0 0 i.op.code
  | .feed _ => packWord 0 false 0 0 0 i.op.code
  | .decodeId _ => packWord 0 false 0 0 0 i.op.code

/-- The command that carries an instruction; an operand the instruction does not take is 0 or empty. -/
def encode (i : Instr) : Command :=
  match i with
  | .pack7 a => ⟨encodeWord i, a, 0, []⟩
  | .nibSplit a => ⟨encodeWord i, a, 0, []⟩
  | .packRuns _ _ a => ⟨encodeWord i, a, 0, []⟩
  | .unpack128 bytes => ⟨encodeWord i, 0, 0, bytes⟩
  | .checksum bytes => ⟨encodeWord i, 0, 0, bytes⟩
  | .encColor bytes => ⟨encodeWord i, 0, 0, bytes⟩
  | .addrUc b => ⟨encodeWord i, 0, b, []⟩
  | .buildRq1 _ _ a b => ⟨encodeWord i, a, b, []⟩
  | .buildDt1 _ _ a bytes => ⟨encodeWord i, a, 0, bytes⟩
  | .buildIdReq => ⟨encodeWord i, 0, 0, []⟩
  | .feed bytes => ⟨encodeWord i, 0, 0, bytes⟩
  | .decodeId bytes => ⟨encodeWord i, 0, 0, bytes⟩

end Sys2Proof
end

