-- ==== Sys2Proof/Machine/State.lean ====
section
/-! DEFINITION. The state of the block (10_state.md), what the host can do to it, the reasons a step can stop, and the
state after reset. Plain data throughout. -/

namespace Sys2Proof.Machine

/-- `ASM`, the frame assembler's state (10_state.md R16). -/
inductive Asm where
  | idle
  | collecting
  deriving DecidableEq, Repr

/-- The response fields of 10_state.md R22. `none` is the spec's own "no value" (R23), not a missing reset value.
Assumption 3. -/
structure Response where
  /-- `STATUS`, 4 bits (60_exceptions.md R91). -/
  status : Option (BitVec 4)
  /-- `RV`, a numeric result. -/
  rv : Option Word
  /-- `RB`, a byte result. -/
  rb : Option Bytes
  /-- `FRAME`, a logical frame. -/
  frame : Option Bytes
  /-- `WIRE`, a composed frame with its padding. -/
  wire : Option Bytes
  /-- `FV`, 1 bit: whether FEED emitted a frame. -/
  fv : Option Bool
  /-- `IDV`, 1 bit: whether DECODEID's frame is an identity reply. -/
  idv : Option Bool
  /-- `ID_DEV`, the decoded `dev` byte. -/
  idDev : Option Byte
  /-- `ID_MFR`, the decoded manufacturer byte. -/
  idMfr : Option Byte
  /-- `ID_FAM`, the two family bytes in frame order. -/
  idFam : Option (Byte × Byte)
  /-- `ID_MDL`, the two model bytes in frame order. -/
  idMdl : Option (Byte × Byte)
  /-- `ID_VER`, the four version bytes in frame order. -/
  idVer : Option (Byte × Byte × Byte × Byte)
  deriving DecidableEq, Repr

/-- No response field holds a value (10_state.md R23, R27). -/
def Response.noValue : Response where
  status := none
  rv := none
  rb := none
  frame := none
  wire := none
  fv := none
  idv := none
  idDev := none
  idMfr := none
  idFam := none
  idMdl := none
  idVer := none

/-- The names of the response fields (10_state.md R22). -/
inductive RespField where
  | status | rv | rb | frame | wire | fv | idv | idDev | idMfr | idFam | idMdl | idVer
  deriving DecidableEq, Repr

/-- What a host reads from a response field, each at its width (10_state.md R22). -/
inductive RespValue where
  | status (v : BitVec 4)
  | word (v : Word)
  | bytes (v : Bytes)
  | flag (v : Bool)
  | byte (v : Byte)
  | pair (v : Byte × Byte)
  | quad (v : Byte × Byte × Byte × Byte)
  deriving DecidableEq, Repr

/-- What the host can do to the block between commands. -/
inductive HostInput where
  /-- Issue a command (10_state.md R21). -/
  | command (c : Command)
  /-- Assert the reset input (70_reset_and_hazards.md R104). -/
  | reset
  /-- Read a response field (20_memory.md R34). -/
  | read (f : RespField)
  deriving DecidableEq, Repr

/-- The state of the block. -/
structure State where
  /-- `ASM` (10_state.md R16). -/
  asm : Asm
  /-- `BUF`, the assembler's buffer (10_state.md R17). -/
  buf : Bytes
  /-- The configuration, fixed at construction (10_state.md R19). -/
  cfg : Config
  /-- The response fields as the last command left them (10_state.md R22, R23). -/
  resp : Response
  /-- The model's own field, not the spec's: what the host does next, oldest first. Assumption 1. -/
  inputs : List HostInput
  deriving DecidableEq, Repr

/-- Where the machine stops with a fault. -/
inductive Fault where
  /-- Raised by a host read (`serveRead`) of a response field that holds no value (10_state.md R23: "reading it is a
  fault in the model"). No command raises it. Safe: nothing is claimed of the value read. -/
  | unwrittenResponse (f : RespField)
  deriving DecidableEq, Repr

/-- Where the machine has no step. -/
inductive Refusal where
  /-- Raised by `exec`'s arm for an instruction without a meaning; no arm does. Safe. -/
  | notModelled (mnemonic : String)
  /-- Raised by `step` for a command whose `S` is longer than `S_MAX`, whatever its word (00_scope.md R12,
  60_exceptions.md R98 item 1). Safe. -/
  | operandTooLong
  /-- Raised by FEED when the buffer would grow past `BUF_CAP` (00_scope.md R12, 43_frameassembler.md R85). Safe. -/
  | bufferCap
  /-- Raised by `step` when the host has nothing pending (10_state.md R13: no part of the block steps on its own
  between commands). Safe. Assumption 5. -/
  | noPendingInput
  deriving DecidableEq, Repr

/-- The block as constructed over a configuration (10_state.md R27, 70_reset_and_hazards.md R103, R104). -/
def State.construct (c : Config) : State where
  asm := .idle
  buf := []
  cfg := c
  resp := Response.noValue
  inputs := []

/-- The machine right after reset: the block constructed over the defaults of 00_scope.md R7. Assumption 2. -/
def State.reset : State :=
  State.construct Config.default

end Sys2Proof.Machine
end

