-- ==== Sys2Proof/Machine/Flags.lean ====
section
/-! DEFINITION. The completion statuses (60_exceptions.md R91). The block has no other flag that a command computes:
`FV` and `IDV` are results of FEED and DECODEID (10_state.md R24). -/

namespace Sys2Proof.Machine

/-- The status names of 60_exceptions.md R91. -/
inductive Status where
  | ok
  | frameFormatError
  | indexOutOfRange
  | identityNotEstablished
  /-- Reserved for the host; the block never produces it (60_exceptions.md R97). -/
  | deviceNotFound
  | illegalCommand
  deriving DecidableEq, Repr

/-- The status codes of 60_exceptions.md R91. Codes 0x5 to 0xE are reserved and never produced. -/
def Status.code : Status → BitVec 4
  | .ok => 0x0
  | .frameFormatError => 0x1
  | .indexOutOfRange => 0x2
  | .identityNotEstablished => 0x3
  | .deviceNotFound => 0x4
  | .illegalCommand => 0xF

end Sys2Proof.Machine
end

