-- ==== Sys2Proof/Machine/Protocol.lean ====
section
/-! DEFINITION. The fixed protocol constants of 00_scope.md R8. -/

namespace Sys2Proof.Machine

/-- The SysEx start byte. -/
def sysexStart : Byte := 0xF0

/-- The SysEx end byte, a frame's terminator. -/
def sysexEnd : Byte := 0xF7

/-- The padding byte. -/
def paddingByte : Byte := 0x00

/-- The byte after `0xF0` in an RQ1 or DT1 frame. -/
def frameHeader : Byte := 0x41

/-- The opcode byte of an RQ1 frame. -/
def opcodeRq1 : Byte := 0x11

/-- The opcode byte of a DT1 frame. -/
def opcodeDt1 : Byte := 0x12

/-- The identity request frame. -/
def identityRequest : Bytes := [0xF0, 0x7E, 0x7F, 0x06, 0x01, 0xF7]

/-- `msgType` of an identity reply. -/
def replyMsgType : Byte := 0x7E

/-- `sub1` of an identity reply. -/
def replySub1 : Byte := 0x06

/-- `sub2` of an identity reply. -/
def replySub2 : Byte := 0x02

/-- Bits of an address or size group. -/
def addressGroupBits : Nat := 7

/-- Groups of a packed address or size. -/
def addressGroups : Nat := 4

/-- Bits of a nibble-split group. -/
def nibbleBits : Nat := 4

/-- Groups of a nibble-split value. -/
def nibbleGroups : Nat := 4

/-- The checksum modulus. -/
def checksumModulus : Nat := 128

/-- The alignment that composed frames are padded to. -/
def paddingAlignment : Nat := 4

/-- The largest user-colour index. -/
def maxUserColor : Nat := 4

end Sys2Proof.Machine
end

