-- ==== Sys2Proof/Machine/Ops.lean ====
section
/-! DEFINITION. The shared operations: the functions on integers and byte sequences, writing the response, ending a
command (with OK or with an error status), and serving the two host inputs that are no command. -/

namespace Sys2Proof.Machine

/-! ### Updates of the state -/

/-- Replace the response fields. -/
def State.setResp (s : State) (r : Response) : State := { s with resp := r }

/-- Write `ASM` and `BUF`. -/
def State.setAssembler (s : State) (asm : Asm) (buf : Bytes) : State := { s with asm := asm, buf := buf }

/-- Replace the pending host inputs. -/
def State.setInputs (s : State) (inputs : List HostInput) : State := { s with inputs := inputs }

/-- Put a status into a response. -/
def Response.withStatus (r : Response) (st : Status) : Response := { r with status := some st.code }

/-! ### Ending a command -/

/-- The end of every command that is not refused: `STATUS` and the fields of `r` are the whole response, so a field
that `r` leaves out holds no value (10_state.md R22, R23). -/
def complete (st : Status) (r : Response) (s : State) : Host.Outcome State Fault Refusal :=
  .next (s.setResp (r.withStatus st))

/-- `finish` (00_scope.md R11): end with status OK. -/
def finish (r : Response) (s : State) : Host.Outcome State Fault Refusal :=
  complete .ok r s

/-- `raise` (00_scope.md R11, 60_exceptions.md R90): what takes the place of an exception. The command ends at once
with an error status; nothing is saved, no handler runs, and only the fields of `r` are written beside `STATUS`. -/
def raise (st : Status) (r : Response) (s : State) : Host.Outcome State Fault Refusal :=
  complete st r s

/-- `raise IllegalCommand()`: nothing but `STATUS` is written (60_exceptions.md R92). -/
def raiseIllegal (s : State) : Host.Outcome State Fault Refusal :=
  raise .illegalCommand Response.noValue s

/-! ### Packing and unpacking -/

/-- `packBitRuns(v, g, w)` (40_bytecodec.md R56): `w` groups of `g` bits, the most significant first. -/
def packBitRuns (v g w : Nat) : Bytes :=
  (List.range w).map fun i => BitVec.ofNat 8 ((v >>> (g * (w - 1 - i))) &&& ((1 <<< g) - 1))

/-- `packBitRuns(v, 7, 4)`, the packing of addresses and sizes (00_scope.md R8, 40_bytecodec.md R57). -/
def packAddress (v : Word) : Bytes :=
  packBitRuns v.toNat addressGroupBits addressGroups

/-- `packBitRuns(v, 4, 4)`, the nibble split (00_scope.md R8, 40_bytecodec.md R58). -/
def nibbleSplit (v : Nat) : Bytes :=
  packBitRuns v nibbleBits nibbleGroups

/-- `unpackBase128(s)` (40_bytecodec.md R60): no byte is masked. -/
def unpackBase128 (bytes : Bytes) : Nat :=
  bytes.foldl (fun acc x => acc * 128 + x.toNat) 0

/-- `sum(S)` (00_scope.md R10). -/
def byteSum (bytes : Bytes) : Nat :=
  (bytes.map BitVec.toNat).sum

/-- `checksum(p)` (40_bytecodec.md R63). -/
def checksumOf (payload : Bytes) : Nat :=
  (checksumModulus - byteSum payload % checksumModulus) % checksumModulus

/-- The checksum as the byte a frame carries (30_encoding.md R54). -/
def checksumByte (payload : Bytes) : Byte :=
  BitVec.ofNat 8 (checksumOf payload)

/-! ### Frames -/

/-- `pad4(f)` (42_messagebuilder.md R69). -/
def pad4 (frame : Bytes) : Bytes :=
  frame ++ List.replicate ((paddingAlignment - frame.length % paddingAlignment) % paddingAlignment) paddingByte

/-- `while last(c) = 0x00 do c <- c[0..len(c)-2]` (43_frameassembler.md R82). -/
def trimPadding (c : Bytes) : Bytes :=
  (c.reverse.dropWhile (fun x => x == paddingByte)).reverse

/-- `c[i]` for `1 <= i <= len(c)-2` (43_frameassembler.md R83). -/
def interior (c : Bytes) : Bytes :=
  (c.drop 1).dropLast

/-- A byte at most 0x7F (20_memory.md R32). -/
def isSevenBit (x : Byte) : Bool :=
  decide (x.toNat ≤ 0x7F)

/-! ### Host inputs that are no command -/

/-- The reset input (70_reset_and_hazards.md R103, R104): `ASM <- Idle`, `BUF <- []`, no response field holds a value,
the configuration stays. -/
def resetInput (s : State) : State :=
  (s.setAssembler .idle []).setResp Response.noValue

/-- The value of a response field, if it holds one (10_state.md R22, R23). -/
def Response.read (r : Response) : RespField → Option RespValue
  | .status => r.status.map .status
  | .rv => r.rv.map .word
  | .rb => r.rb.map .bytes
  | .frame => r.frame.map .bytes
  | .wire => r.wire.map .bytes
  | .fv => r.fv.map .flag
  | .idv => r.idv.map .flag
  | .idDev => r.idDev.map .byte
  | .idMfr => r.idMfr.map .byte
  | .idFam => r.idFam.map .pair
  | .idMdl => r.idMdl.map .pair
  | .idVer => r.idVer.map .quad

/-- A host read: no side effect (20_memory.md R34), and a fault where the field holds no value (10_state.md R23).
Assumption 4. -/
def serveRead (f : RespField) (s : State) : Host.Outcome State Fault Refusal :=
  match s.resp.read f with
  | some _ => .next s
  | none => .fault (.unwrittenResponse f)

end Sys2Proof.Machine
end

