-- ==== Sys2Proof/Machine/Operands.lean ====
section
/-! DEFINITION. The checks on operands: the bound on `S` that comes before everything else, and the ranges the
commands' own rules give (60_exceptions.md R98). -/

namespace Sys2Proof.Machine

/-- `len(S) > S_MAX` (60_exceptions.md R98 item 1): tested for every command, whether or not it uses `S`. -/
def operandTooLong (cfg : Config) (c : Command) : Bool :=
  decide (cfg.sMax < c.bytes.length)

/-- PACKRUNS takes `G` and `W` in 1 to 8 (40_bytecodec.md R59). -/
def packRunsInRange (g w : BitVec 4) : Bool :=
  !(decide (g.toNat < 1) || decide (8 < g.toNat) || decide (w.toNat < 1) || decide (8 < w.toNat))

/-- UNPACK128 takes at most 4 bytes (40_bytecodec.md R61). -/
def unpackInRange (bytes : Bytes) : Bool :=
  decide (bytes.length ≤ 4)

/-- ENCCOLOR's three channels R, G, B; `none` unless `S` has exactly 3 bytes (40_bytecodec.md R65). -/
def colorChannels : Bytes → Option (Byte × Byte × Byte)
  | [red, green, blue] => some (red, green, blue)
  | _ => none

/-- ADDRUC's index `B`; `none` when `B > 4` (41_addressspace.md R68). -/
def userColorIndex (b : Word) : Option (Fin 5) :=
  if h : b.toNat ≤ maxUserColor then some ⟨b.toNat, Nat.lt_succ_of_le h⟩ else none

end Sys2Proof.Machine
end

