-- ==== Sys2Proof/Machine/AddressSpace.lean ====
section
/-! DEFINITION. The AddressSpace command (41_addressspace.md). -/

namespace Sys2Proof.Machine

/-- `userColorAddress(i)` (41_addressspace.md R67), an ordinary integer sum. -/
def userColorAddress (c : Config) (i : Fin 5) : Nat :=
  c.setupBase.toNat + c.colorTableBase.toNat + c.userPaletteSlotIndex.get i * c.colorTableStep.toNat
    + c.colorRgbOffset.toNat

/-- ADDRUC (41_addressspace.md R68). On a configuration that is not well-formed the sum may pass 32 bits and is then
taken modulo 2^32; the spec builds no such block. Assumption 9. -/
def execAddrUc (b : Word) (s : State) : Host.Outcome State Fault Refusal :=
  match userColorIndex b with
  | some i => finish { Response.noValue with rv := some (BitVec.ofNat 32 (userColorAddress s.cfg i)) } s
  | none => raise .indexOutOfRange Response.noValue s

end Sys2Proof.Machine
end

