-- ==== Sys2Proof/Machine/ByteCodec.lean ====
section
/-! DEFINITION. The ByteCodec commands (40_bytecodec.md). -/

namespace Sys2Proof.Machine

/-- PACK7 (40_bytecodec.md R57). -/
def execPack7 (a : Word) (s : State) : Host.Outcome State Fault Refusal :=
  finish { Response.noValue with rb := some (packAddress a) } s

/-- NIBSPLIT (40_bytecodec.md R58). -/
def execNibSplit (a : Word) (s : State) : Host.Outcome State Fault Refusal :=
  finish { Response.noValue with rb := some (nibbleSplit a.toNat) } s

/-- PACKRUNS (40_bytecodec.md R59). -/
def execPackRuns (g w : BitVec 4) (a : Word) (s : State) : Host.Outcome State Fault Refusal :=
  if packRunsInRange g w then
    finish { Response.noValue with rb := some (packBitRuns a.toNat g.toNat w.toNat) } s
  else raiseIllegal s

/-- UNPACK128 (40_bytecodec.md R61). -/
def execUnpack128 (bytes : Bytes) (s : State) : Host.Outcome State Fault Refusal :=
  if unpackInRange bytes then
    finish { Response.noValue with rv := some (BitVec.ofNat 32 (unpackBase128 bytes)) } s
  else raiseIllegal s

/-- CHECKSUM (40_bytecodec.md R64). -/
def execChecksum (bytes : Bytes) (s : State) : Host.Outcome State Fault Refusal :=
  finish { Response.noValue with rv := some (BitVec.ofNat 32 (checksumOf bytes)) } s

/-- ENCCOLOR (40_bytecodec.md R65). -/
def execEncColor (bytes : Bytes) (s : State) : Host.Outcome State Fault Refusal :=
  match colorChannels bytes with
  | some (red, green, blue) =>
    finish { Response.noValue with
      rb := some (nibbleSplit red.toNat ++ nibbleSplit green.toNat ++ nibbleSplit blue.toNat) } s
  | none => raiseIllegal s

end Sys2Proof.Machine
end

