-- ==== Sys2Proof/Machine/FrameAssembler.lean ====
section
/-! DEFINITION. The FrameAssembler commands (43_frameassembler.md). -/

namespace Sys2Proof.Machine

/-! ### FEED -/

/-- `FV <- 0; finish`. -/
def finishNoFrame (s : State) : Host.Outcome State Fault Refusal :=
  finish { Response.noValue with fv := some false } s

/-- `BUF_CAP is bounded and len(BUF) > BUF_CAP` (43_frameassembler.md R76, R85). -/
def overCap (cfg : Config) (buf : Bytes) : Bool :=
  match cfg.bufCap with
  | none => false
  | some cap => decide (cap < buf.length)

/-- Emit processing, step 2 (43_frameassembler.md R83): the first byte, the last byte and, under `CHECK_INTERIOR`,
the bytes between them. -/
def acceptsCandidate (cfg : Config) (c : Bytes) : Bool :=
  c.head? == some sysexStart && c.getLast? == some sysexEnd
    && (!cfg.checkInterior || (interior c).all isSevenBit)

/-- Emit processing (43_frameassembler.md R82 to R84): trim, then emit the frame or drop the candidate with
FRAME_FORMAT_ERROR. -/
def emitCandidate (candidate : Bytes) (s : State) : Host.Outcome State Fault Refusal :=
  if acceptsCandidate s.cfg (trimPadding candidate) then
    finish { Response.noValue with frame := some (trimPadding candidate), fv := some true } s
  else raise .frameFormatError { Response.noValue with fv := some false } s

/-- After the fragment is taken into the buffer (43_frameassembler.md R76): the cap, the emission trigger, which looks
at the fragment just taken (R81), and otherwise the grown buffer (R85). -/
def takeFragment (fragment buf : Bytes) (s : State) : Host.Outcome State Fault Refusal :=
  if overCap s.cfg buf then .refused .bufferCap
  else if fragment.contains sysexEnd then emitCandidate buf (s.setAssembler .idle [])
  else finishNoFrame (s.setAssembler .collecting buf)

/-- FEED (43_frameassembler.md R76). -/
def execFeed (bytes : Bytes) (s : State) : Host.Outcome State Fault Refusal :=
  match bytes with
  | [] => finishNoFrame s
  | first :: rest =>
    match s.asm with
    | .idle =>
      if first == sysexStart then takeFragment (first :: rest) (first :: rest) s
      else finishNoFrame s
    | .collecting =>
      if s.cfg.restartOnF0 && first == sysexStart then takeFragment (first :: rest) (first :: rest) s
      else takeFragment (first :: rest) (s.buf ++ first :: rest) s

/-! ### DECODEID -/

/-- The identity record (43_frameassembler.md R87, R89). -/
structure Identity where
  deviceId : Byte
  manufacturerId : Byte
  family : Byte × Byte
  model : Byte × Byte
  version : Byte × Byte × Byte × Byte
  deriving DecidableEq, Repr

/-- `decodeIdentityReply(f)` (43_frameassembler.md R87, 30_encoding.md R50); `none` is "not an identity reply". -/
def decodeIdentityReply : Bytes → Option Identity
  | [start, msgType, dev, sub1, sub2, mfr, fam0, fam1, mdl0, mdl1, ver0, ver1, ver2, ver3, terminator] =>
    if start = sysexStart ∧ terminator = sysexEnd ∧ msgType = replyMsgType ∧ sub1 = replySub1 ∧ sub2 = replySub2 then
      some ⟨dev, mfr, (fam0, fam1), (mdl0, mdl1), (ver0, ver1, ver2, ver3)⟩
    else none
  | _ => none

/-- DECODEID (43_frameassembler.md R88). -/
def execDecodeId (bytes : Bytes) (s : State) : Host.Outcome State Fault Refusal :=
  match decodeIdentityReply bytes with
  | none => finish { Response.noValue with idv := some false } s
  | some r =>
    finish { Response.noValue with
      idv := some true
      idDev := some r.deviceId
      idMfr := some r.manufacturerId
      idFam := some r.family
      idMdl := some r.model
      idVer := some r.version } s

end Sys2Proof.Machine
end

