-- ==== Sys2Proof/Machine/MessageBuilder.lean ====
section
/-! DEFINITION. The MessageBuilder commands (42_messagebuilder.md). -/

namespace Sys2Proof.Machine

/-- The Roland parameter frame (30_encoding.md R46, R54): the checksum covers the payload, the bytes between the
opcode byte and the checksum, and stands immediately before the terminator. -/
def parameterFrame (modelId : Bytes) (dev : BitVec 7) (opcode : Byte) (payload : Bytes) : Bytes :=
  [sysexStart, frameHeader, dev.setWidth 8] ++ modelId ++ [opcode] ++ payload ++ [checksumByte payload, sysexEnd]

/-- `FRAME <- f`, `WIRE <- pad4(f)`, `finish` (42_messagebuilder.md R69). -/
def finishFrame (frame : Bytes) (s : State) : Host.Outcome State Fault Refusal :=
  finish { Response.noValue with frame := some frame, wire := some (pad4 frame) } s

/-- The device id requirement of the two parameter-frame builders (42_messagebuilder.md R70): with `DV = 0` neither
`FRAME` nor `WIRE` is written, and no device id is put in the place of a missing one. -/
def finishParameterFrame (dv : Bool) (dev : BitVec 7) (opcode : Byte) (payload : Bytes) (s : State) :
    Host.Outcome State Fault Refusal :=
  if dv then finishFrame (parameterFrame s.cfg.modelId dev opcode payload) s
  else raise .identityNotEstablished Response.noValue s

/-- BUILDRQ1 (42_messagebuilder.md R71). -/
def execBuildRq1 (dv : Bool) (dev : BitVec 7) (a b : Word) (s : State) : Host.Outcome State Fault Refusal :=
  finishParameterFrame dv dev opcodeRq1 (packAddress a ++ packAddress b) s

/-- BUILDDT1 (42_messagebuilder.md R72): the data bytes are copied unchanged. -/
def execBuildDt1 (dv : Bool) (dev : BitVec 7) (a : Word) (bytes : Bytes) (s : State) :
    Host.Outcome State Fault Refusal :=
  finishParameterFrame dv dev opcodeDt1 (packAddress a ++ bytes) s

/-- BUILDIDREQ (42_messagebuilder.md R73). -/
def execBuildIdReq (s : State) : Host.Outcome State Fault Refusal :=
  finishFrame identityRequest s

end Sys2Proof.Machine
end

