-- ==== Sys2Proof/Machine/Dispatch.lean ====
section
/-! DEFINITION. One arm per command (30_encoding.md R42), each one direct call of its meaning. -/

namespace Sys2Proof.Machine

def exec (i : Instr) (s : State) : Host.Outcome State Fault Refusal :=
  match i with
  -- ByteCodec
  | .pack7 a => Sys2Proof.Machine.execPack7 a s
  | .nibSplit a => Sys2Proof.Machine.execNibSplit a s
  | .packRuns g w a => Sys2Proof.Machine.execPackRuns g w a s
  | .unpack128 bytes => Sys2Proof.Machine.execUnpack128 bytes s
  | .checksum bytes => Sys2Proof.Machine.execChecksum bytes s
  | .encColor bytes => Sys2Proof.Machine.execEncColor bytes s
  -- AddressSpace
  | .addrUc b => Sys2Proof.Machine.execAddrUc b s
  -- MessageBuilder
  | .buildRq1 dv dev a b => Sys2Proof.Machine.execBuildRq1 dv dev a b s
  | .buildDt1 dv dev a bytes => Sys2Proof.Machine.execBuildDt1 dv dev a bytes s
  | .buildIdReq => Sys2Proof.Machine.execBuildIdReq s
  -- FrameAssembler
  | .feed bytes => Sys2Proof.Machine.execFeed bytes s
  | .decodeId bytes => Sys2Proof.Machine.execDecodeId bytes s

end Sys2Proof.Machine
end

