-- ==== Sys2Proof/Machine/Issue.lean ====
section
/-! DEFINITION. One command from its fields, with the checks that come before its own rule (60_exceptions.md R98). -/

namespace Sys2Proof.Machine

/-- One command, in the order of 60_exceptions.md R98: the bound on `S` (refused, item 1), the reserved bits (item 2)
and the opcode (item 3), both ILLEGAL_COMMAND, then the command's own rule (item 4). Assumption 6. -/
def runCommand (c : Command) (s : State) : Host.Outcome State Fault Refusal :=
  if operandTooLong s.cfg c then .refused .operandTooLong
  else match decode c with
    | .illegal _ => raiseIllegal s
    | .instr i => exec i s

/-- The oldest pending host input is served, and taken off the list (10_state.md R13, 20_memory.md R33, R37). -/
def serveInput (input : HostInput) (s : State) : Host.Outcome State Fault Refusal :=
  match input with
  | .command c => runCommand c s
  | .reset => .next (resetInput s)
  | .read f => serveRead f s

end Sys2Proof.Machine
end

