-- ==== Sys2Proof/Machine/Step.lean ====
section
/-! DEFINITION. One step: the oldest pending host input is served (10_state.md R13, 20_memory.md R33, R37). -/

namespace Sys2Proof.Machine

/-- One step of the machine. With nothing pending there is none (10_state.md R13; assumption 5). -/
def step (s : State) : Host.Outcome State Fault Refusal :=
  match s.inputs with
  | [] => .refused .noPendingInput
  | input :: rest => serveInput input (s.setInputs rest)

/-- The command word `w` put where the next step takes its command from: in front of the pending inputs, with operands
of zeros. Nothing else changes. Assumption 1. -/
def State.withFetchWord (s : State) (nbits w : Nat) : State :=
  s.setInputs (.command (tableCommand nbits w) :: s.inputs)

end Sys2Proof.Machine
end

