-- ==== Sys2Proof/Machine/Assembler.lean ====
section
/-! DEFINITION. The command syntax of 30_encoding.md R52: from a written line to the command it stands for. Assumption 11. -/

namespace Sys2Proof.Machine

/-- The mnemonics as 30_encoding.md R42 writes them. -/
def mnemonicText : Op → String
  | .pack7 => "PACK7"
  | .nibSplit => "NIBSPLIT"
  | .packRuns => "PACKRUNS"
  | .unpack128 => "UNPACK128"
  | .checksum => "CHECKSUM"
  | .encColor => "ENCCOLOR"
  | .addrUc => "ADDRUC"
  | .buildRq1 => "BUILDRQ1"
  | .buildDt1 => "BUILDDT1"
  | .buildIdReq => "BUILDIDREQ"
  | .feed => "FEED"
  | .decodeId => "DECODEID"

/-- One written operand. -/
inductive AsmOperand where
  | a (v : Nat)
  | b (v : Nat)
  | bytes (v : Bytes)
  | g (v : Nat)
  | w (v : Nat)
  /-- `DEV=d`: sets `DV = 1`, `DEV = d`. -/
  | dev (v : Nat)
  /-- `NODEV`: sets `DV = 0`, `DEV = 0`. -/
  | noDev
  deriving DecidableEq, Repr

/-- A written command: a mnemonic and its operands. -/
structure AsmLine where
  op : Op
  operands : List AsmOperand
  deriving DecidableEq, Repr

/-- The operands each command takes (the operand lines of its rule; 30_encoding.md R52: "An operand a command does not
take is not written"). -/
def takesOperand : Op → AsmOperand → Bool
  | .pack7, .a _ => true
  | .nibSplit, .a _ => true
  | .packRuns, .g _ => true
  | .packRuns, .w _ => true
  | .packRuns, .a _ => true
  | .unpack128, .bytes _ => true
  | .checksum, .bytes _ => true
  | .encColor, .bytes _ => true
  | .addrUc, .b _ => true
  | .buildRq1, .dev _ => true
  | .buildRq1, .noDev => true
  | .buildRq1, .a _ => true
  | .buildRq1, .b _ => true
  | .buildDt1, .dev _ => true
  | .buildDt1, .noDev => true
  | .buildDt1, .a _ => true
  | .buildDt1, .bytes _ => true
  | .feed, .bytes _ => true
  | .decodeId, .bytes _ => true
  | _, _ => false

/-- Whether a written value fits its field (30_encoding.md R40, 10_state.md R21). -/
def AsmOperand.fits : AsmOperand → Bool
  | .a v => decide (v < 2 ^ 32)
  | .b v => decide (v < 2 ^ 32)
  | .bytes _ => true
  | .g v => decide (v < 16)
  | .w v => decide (v < 16)
  | .dev v => decide (v < 128)
  | .noDev => true

/-- Which field an operand writes: `DEV=` and `NODEV` write the same two. -/
def AsmOperand.slot : AsmOperand → Nat
  | .a _ => 0
  | .b _ => 1
  | .bytes _ => 2
  | .g _ => 3
  | .w _ => 4
  | .dev _ => 5
  | .noDev => 5

/-- The fields a written command sets. -/
structure AsmFields where
  a : Nat
  b : Nat
  bytes : Bytes
  g : Nat
  w : Nat
  dv : Bool
  dev : Nat
  deriving DecidableEq, Repr

/-- Every field of a command before its operands are read: "unwritten fields 0" (30_encoding.md R52). -/
def AsmFields.zero : AsmFields where
  a := 0
  b := 0
  bytes := []
  g := 0
  w := 0
  dv := false
  dev := 0

/-- One written operand put into the fields. -/
def AsmFields.set (f : AsmFields) : AsmOperand → AsmFields
  | .a v => { f with a := v }
  | .b v => { f with b := v }
  | .bytes v => { f with bytes := v }
  | .g v => { f with g := v }
  | .w v => { f with w := v }
  | .dev v => { f with dv := true, dev := v }
  | .noDev => { f with dv := false, dev := 0 }

/-- No two operands of a line write the same field. -/
def slotsDistinct : List AsmOperand → Bool
  | [] => true
  | o :: os => os.all (fun p => p.slot != o.slot) && slotsDistinct os

/-- The command a written line stands for (30_encoding.md R52); `none` for a line that is not of the syntax: an operand
the command does not take, a value that does not fit, or a field written twice. -/
def AsmLine.toCommand (line : AsmLine) : Option Command :=
  if line.operands.all (fun o => takesOperand line.op o && o.fits) && slotsDistinct line.operands then
    let f := line.operands.foldl AsmFields.set AsmFields.zero
    some
      { cw := packWord 0 f.dv (BitVec.ofNat 7 f.dev) (BitVec.ofNat 4 f.w) (BitVec.ofNat 4 f.g) line.op.code
        a := BitVec.ofNat 32 f.a
        b := BitVec.ofNat 32 f.b
        bytes := f.bytes }
  else none

/-- The line that writes an instruction. A builder with `DV = 0` is written `NODEV`, which drops `DEV`. -/
def AsmLine.ofInstr (i : Instr) : AsmLine where
  op := i.op
  operands :=
    match i with
    | .pack7 a => [.a a.toNat]
    | .nibSplit a => [.a a.toNat]
    | .packRuns g w a => [.g g.toNat, .w w.toNat, .a a.toNat]
    | .unpack128 bytes => [.bytes bytes]
    | .checksum bytes => [.bytes bytes]
    | .encColor bytes => [.bytes bytes]
    | .addrUc b => [.b b.toNat]
    | .buildRq1 dv dev a b => [if dv then .dev dev.toNat else .noDev, .a a.toNat, .b b.toNat]
    | .buildDt1 dv dev a bytes => [if dv then .dev dev.toNat else .noDev, .a a.toNat, .bytes bytes]
    | .buildIdReq => []
    | .feed bytes => [.bytes bytes]
    | .decodeId bytes => [.bytes bytes]

/-! ### Reading the text -/

/-- The digits of the spec's hexadecimal numbers and byte pairs in the order of their values, as 00_scope.md R9 writes
them. -/
def digitSymbols : List Char := "0123456789ABCDEF".toList

/-- The value of a digit of the base: its place among the symbols, which must lie below the base. A small letter reads
as its capital. Assumption 11. -/
def digitValue (base : Nat) (symbol : Char) : Option Nat :=
  (digitSymbols.take base).idxOf? symbol.toUpper

/-- A numeral, most significant digit first: each further digit multiplies what is read so far by the base. No digit
at all is no numeral. -/
def readNumeral (base : Nat) (symbols : List Char) : Option Nat :=
  if symbols.isEmpty then none
  else
    symbols.foldl
      (fun acc symbol => acc.bind fun value => (digitValue base symbol).map fun digit => value * base + digit)
      (some 0)

/-- "Values are `0x` hexadecimal or decimal numbers" (30_encoding.md R52). -/
def readNumber : List Char → Option Nat
  | '0' :: 'x' :: symbols => readNumeral 16 symbols
  | symbols => readNumeral 10 symbols

/-- Cut a text at every `sep`. -/
def splitAtChar (sep : Char) : List Char → List (List Char)
  | [] => [[]]
  | c :: cs =>
    match splitAtChar sep cs with
    | [] => [[c]]
    | piece :: pieces => if c = sep then [] :: piece :: pieces else (c :: piece) :: pieces

/-- A text without the spaces around it. -/
def trimSpaces (cs : List Char) : List Char :=
  ((cs.dropWhile (· == ' ')).reverse.dropWhile (· == ' ')).reverse

/-- A hexadecimal pair (00_scope.md R9, 30_encoding.md R52). -/
def readPair (symbols : List Char) : Option Byte :=
  if symbols.length = 2 then (readNumeral 16 symbols).map (BitVec.ofNat 8) else none

/-- All of a list, or none of it. -/
def readAll {α β : Type} (read : α → Option β) : List α → Option (List β)
  | [] => some []
  | x :: xs =>
    match read x, readAll read xs with
    | some y, some ys => some (y :: ys)
    | _, _ => none

/-- "a byte sequence is written in brackets as hexadecimal pairs" (30_encoding.md R52). -/
def readBytes (cs : List Char) : Option Bytes :=
  match cs with
  | '[' :: rest =>
    if rest.getLast? = some ']' then
      readAll readPair ((splitAtChar ' ' rest.dropLast).filter (fun piece => !piece.isEmpty))
    else none
  | _ => none

/-- `NAME=value` or `NODEV` (30_encoding.md R52). -/
def readOperand (cs : List Char) : Option AsmOperand :=
  match cs with
  | ['N', 'O', 'D', 'E', 'V'] => some .noDev
  | 'D' :: 'E' :: 'V' :: '=' :: value => (readNumber value).map .dev
  | 'A' :: '=' :: value => (readNumber value).map .a
  | 'B' :: '=' :: value => (readNumber value).map .b
  | 'G' :: '=' :: value => (readNumber value).map .g
  | 'W' :: '=' :: value => (readNumber value).map .w
  | 'S' :: '=' :: value => (readBytes value).map .bytes
  | _ => none

/-- A written line: "the mnemonic of rule R42, then operands as `NAME=value` separated by commas" (30_encoding.md R52). -/
def readLine (text : String) : Option AsmLine :=
  let cs := trimSpaces text.toList
  let name := cs.takeWhile (· != ' ')
  let rest := trimSpaces (cs.dropWhile (· != ' '))
  match Op.table.find? (fun op => (mnemonicText op).toList == name) with
  | none => none
  | some op =>
    if rest.isEmpty then some ⟨op, []⟩
    else
      match readAll (fun piece => readOperand (trimSpaces piece)) (splitAtChar ',' rest) with
      | some operands => some ⟨op, operands⟩
      | none => none

/-- The command a written line stands for. -/
def assemble (text : String) : Option Command :=
  match readLine text with
  | some line => line.toCommand
  | none => none

end Sys2Proof.Machine
end

