-- ==== Sys2Proof/Machine/Run.lean ====
section
/-! DEFINITION. Runs (70_reset_and_hazards.md R113): a finite sequence of commands, its end state and the response of
each command. -/

namespace Sys2Proof.Machine

/-- Go on from a next state; a fault or a refusal ends the run (00_scope.md R12). -/
def andThen {α β : Type} (o : Host.Outcome α Fault Refusal) (k : α → Host.Outcome β Fault Refusal) :
    Host.Outcome β Fault Refusal :=
  match o with
  | .next a => k a
  | .fault r => .fault r
  | .refused r => .refused r

/-- The step that one command is, in a state with nothing else pending. -/
def issue (c : Command) (s : State) : Host.Outcome State Fault Refusal :=
  step (s.setInputs [.command c])

/-- A run (70_reset_and_hazards.md R113): the end state, and the response of each command in order. -/
def runCommands : List Command → State → Host.Outcome (State × List Response) Fault Refusal
  | [], s => .next (s, [])
  | c :: cs, s => andThen (issue c s) fun t => andThen (runCommands cs t) fun u => .next (u.1, t.resp :: u.2)

/-- Whether a command is a FEED (30_encoding.md R42). -/
def isFeed (c : Command) : Bool :=
  match decode c with
  | .instr (.feed _) => true
  | _ => false

end Sys2Proof.Machine
end

