-- ==== Sys2Proof/Machine/Pseudo.lean ====
section
/-! DEFINITION. The host's side that the spec gives: the pseudo-commands of 30_encoding.md R53, each a sequence of
commands, and the check of a decoded device id (43_frameassembler.md R89). -/

namespace Sys2Proof.Machine

/-- `REQKIT DEV=d` and `REQKIT NODEV` (30_encoding.md R53). -/
def reqKit (dv : Bool) (dev : BitVec 7) : Command :=
  encode (.buildRq1 dv dev 0 4)

/-- `IDENTIFY` (30_encoding.md R53). -/
def identify : Command :=
  encode .buildIdReq

/-- `SETCOLOR` (30_encoding.md R53): `ADDRUC`, and stop with its status if that is not OK; `ENCCOLOR`; `BUILDDT1` on
the address and the bytes these left in `RV` and `RB`. With a colour that is not 3 bytes ENCCOLOR leaves no `RB`, and
reading it is the model's fault (10_state.md R23). Assumption 10. -/
def setColor (dv : Bool) (dev : BitVec 7) (index : Word) (rgb : Bytes) (s : State) :
    Host.Outcome (State × List Response) Fault Refusal :=
  andThen (issue (encode (.addrUc index)) s) fun s1 =>
    if s1.resp.status ≠ some Status.ok.code then .next (s1, [s1.resp])
    else andThen (issue (encode (.encColor rgb)) s1) fun s2 =>
      match s1.resp.rv, s2.resp.rb with
      | none, _ => .fault (.unwrittenResponse .rv)
      | some _, none => .fault (.unwrittenResponse .rb)
      | some address, some data =>
        andThen (issue (encode (.buildDt1 dv dev address data)) s2) fun s3 =>
          .next (s3, [s1.resp, s2.resp, s3.resp])

/-- A decoded `ID_DEV` as a builder's `DEV`: only when it is at most 0x7F (43_frameassembler.md R89,
70_reset_and_hazards.md R109). -/
def deviceIdOf (idDev : Byte) : Option (BitVec 7) :=
  if isSevenBit idDev then some (idDev.setWidth 7) else none

end Sys2Proof.Machine
end

