-- ==== Sys2Proof/Safety.lean ====
section
/-! DEFINITION. What claims are stated in: the invariant of the block's states, the frames the spec calls conforming, and
the spec's own descriptions of a packed value, a checksum, a padded frame and the buffer a fragment leaves, written
apart from the machine's definitions so that a claim compares two texts. -/

namespace Sys2Proof.Machine

/-- The invariant of 10_state.md R17 and 43_frameassembler.md R79: `BUF` is empty in `Idle`; in `Collecting` it starts
with `0xF0` and holds no `0xF7`; and it never passes a bounded `BUF_CAP`. -/
def AssemblerInv (s : State) : Prop :=
  (s.asm = .idle → s.buf = [])
    ∧ (s.asm = .collecting → 1 ≤ s.buf.length ∧ s.buf.head? = some 0xF0 ∧ (0xF7 : Byte) ∉ s.buf)
    ∧ ∀ cap, s.cfg.bufCap = some cap → s.buf.length ≤ cap

/-- A status the block produces: every code of 60_exceptions.md R91 but DEVICE_NOT_FOUND and the reserved ones. -/
def ProducedStatus (code : BitVec 4) : Prop :=
  code = 0x0 ∨ code = 0x1 ∨ code = 0x2 ∨ code = 0x3 ∨ code = 0xF

/-- The responses a block can hold: a produced status or no value at all; an error status with nothing else written,
but for `FV = 0` beside FRAME_FORMAT_ERROR (60_exceptions.md R90); `WIRE` only beside its `FRAME`, padded
(42_messagebuilder.md R69); `FV = 1` only beside a frame that no builder composed (43_frameassembler.md R83); the
`ID_*` fields exactly when `IDV = 1` (43_frameassembler.md R88). -/
def ResponseInv (r : Response) : Prop :=
  (∀ code, r.status = some code → ProducedStatus code)
    ∧ (r.status = none → r = Response.noValue)
    ∧ (∀ code, r.status = some code → code ≠ 0x0 →
        r = { Response.noValue with status := some code, fv := if code = 0x1 then some false else none })
    ∧ (∀ wire, r.wire = some wire → ∃ frame, r.frame = some frame ∧ wire = pad4 frame ∧ r.fv = none)
    ∧ (r.fv = some true → r.wire = none ∧ ∃ frame, r.frame = some frame)
    ∧ (r.idv = some true ↔ r.idDev.isSome = true)
    ∧ r.idDev.isSome = r.idMfr.isSome ∧ r.idDev.isSome = r.idFam.isSome
    ∧ r.idDev.isSome = r.idMdl.isSome ∧ r.idDev.isSome = r.idVer.isSome

/-- The invariant of the machine: a well-formed configuration (10_state.md R20), the assembler's invariant, and a
response the block can hold. -/
def Inv (s : State) : Prop :=
  s.cfg.wellFormed = true ∧ AssemblerInv s ∧ ResponseInv s.resp

/-- A conforming SysEx frame (20_memory.md R32, 30_encoding.md R45): from `0xF0` to `0xF7`, with 7-bit bytes between. -/
def ConformingFrame (frame : Bytes) : Prop :=
  ∃ inner : Bytes, frame = 0xF0 :: (inner ++ [0xF7]) ∧ ∀ x ∈ inner, x.toNat ≤ 0x7F

/-- The four 7-bit groups of a packed value, bit by bit: `[A[27:21], A[20:14], A[13:7], A[6:0]]`
(40_bytecodec.md R57). -/
def sevenBitGroups (v : Word) : Bytes :=
  [(v.extractLsb' 21 7).setWidth 8, (v.extractLsb' 14 7).setWidth 8, (v.extractLsb' 7 7).setWidth 8,
    (v.extractLsb' 0 7).setWidth 8]

/-- The four 4-bit groups of a value: `[A[15:12], A[11:8], A[7:4], A[3:0]]` (40_bytecodec.md R58). -/
def nibblesOf (v : Word) : Bytes :=
  [(v.extractLsb' 12 4).setWidth 8, (v.extractLsb' 8 4).setWidth 8, (v.extractLsb' 4 4).setWidth 8,
    (v.extractLsb' 0 4).setWidth 8]

/-- A value's place in base 128, the first byte the most significant (40_bytecodec.md R60): every byte at its full
value times its weight. -/
def base128Value (bytes : Bytes) : Nat :=
  ((List.range bytes.length).map fun i => (bytes.getD i 0).toNat * 128 ^ (bytes.length - 1 - i)).sum

/-- The byte that completes a payload's sum to a multiple of 128 (40_bytecodec.md R63, R64): there is exactly one below
128. -/
def IsChecksumOf (payload : Bytes) (ck : Nat) : Prop :=
  ck < 128 ∧ ((payload.map BitVec.toNat).sum + ck) % 128 = 0

/-- A frame with its padding (42_messagebuilder.md R69): 0 to 3 bytes `0x00`, up to a multiple of 4. -/
def PaddedTo4 (frame wire : Bytes) : Prop :=
  ∃ n, n < 4 ∧ wire = frame ++ List.replicate n 0x00 ∧ wire.length % 4 = 0

/-- The buffer after FEED has taken a fragment (43_frameassembler.md R79, R80), for a fragment that is taken at all. -/
def TakenInto (s : State) (fragment buf : Bytes) : Prop :=
  (s.asm = .idle ∧ fragment.head? = some 0xF0 ∧ buf = fragment)
    ∨ (s.asm = .collecting ∧ s.cfg.restartOnF0 = true ∧ fragment.head? = some 0xF0 ∧ buf = fragment)
    ∨ (s.asm = .collecting ∧ fragment ≠ [] ∧ (s.cfg.restartOnF0 = false ∨ fragment.head? ≠ some 0xF0)
        ∧ buf = s.buf ++ fragment)

/-- `BUF_CAP` allows a buffer of this length (43_frameassembler.md R85). -/
def WithinCap (cfg : Config) (buf : Bytes) : Prop :=
  ∀ cap, cfg.bufCap = some cap → buf.length ≤ cap

/-- What emit processing accepts (43_frameassembler.md R83): `0xF0`, any bytes (7-bit ones under `CHECK_INTERIOR`),
`0xF7`. -/
def AcceptedFrame (cfg : Config) (frame : Bytes) : Prop :=
  ∃ inner : Bytes, frame = 0xF0 :: (inner ++ [0xF7])
    ∧ (cfg.checkInterior = true → ∀ x ∈ inner, x.toNat ≤ 0x7F)

/-- The bits of `CW` that a command uses (30_encoding.md R40, its "used by" column). -/
def usedBits : Op → Word
  | .packRuns => 0xFF00FFFF
  | .buildRq1 => 0xFFFF00FF
  | .buildDt1 => 0xFFFF00FF
  | .pack7 => 0xFF0000FF
  | .nibSplit => 0xFF0000FF
  | .unpack128 => 0xFF0000FF
  | .checksum => 0xFF0000FF
  | .encColor => 0xFF0000FF
  | .addrUc => 0xFF0000FF
  | .buildIdReq => 0xFF0000FF
  | .feed => 0xFF0000FF
  | .decodeId => 0xFF0000FF

/-- The commands whose rule names the operand `A`. -/
def usesA (op : Op) : Bool :=
  op ∈ [Op.pack7, .nibSplit, .packRuns, .buildRq1, .buildDt1]

/-- The commands whose rule names the operand `B`. -/
def usesB (op : Op) : Bool :=
  op ∈ [Op.addrUc, .buildRq1]

/-- The commands whose rule names the operand `S`. -/
def usesBytes (op : Op) : Bool :=
  op ∈ [Op.unpack128, .checksum, .encColor, .buildDt1, .feed, .decodeId]

/-- The reserved `OP` values as 30_encoding.md R43 lists them. -/
def ReservedOpcode (op : BitVec 8) : Prop :=
  op = 0x00 ∨ op = 0x07 ∨ (0x09 ≤ op ∧ op ≤ 0x10) ∨ (0x14 ≤ op ∧ op ≤ 0x1F) ∨ 0x22 ≤ op

end Sys2Proof.Machine
end

