-- ==== Sys2Proof/Certificates/Slice0/Obligations.lean ====
section
/-! DEFINITION. The statements for the provers. A response is written as `Response.noValue` with the fields a rule
writes, so every equation with a next state is at once the result, the frame and the completion of its command: what
the equation does not name is unchanged (state) or holds no value (response). Every state carries its configuration, so
every statement quantifies over the parameters of 00_scope.md R7. `exec` does not test `S_MAX` (assumption 6): a
statement about `exec` holds of an `S` of any length, and `OverlongOperandIsRefused` says what a step does with one that
is too long. -/

open Sys2Proof Sys2Proof.Machine

/-! ### Encoding and the step -/

/-- Decode and encode agree on every command, at every value of every field and operand (30_encoding.md R40, R42). -/
def Obligations.DecodeInvertsEncode : Prop :=
  ∀ i : Instr, decode (encode i) = .instr i

/-- The other direction: what decodes to a command is that command's encoding, but for the fields of `CW` and the
operands its rule does not use, which the encoder leaves 0 (30_encoding.md R40, R52; 10_state.md R21). -/
def Obligations.EncodeInvertsDecodeOnUsedFields : Prop :=
  ∀ (c : Command) (i : Instr), decode c = .instr i →
    (encode i).cw = c.cw &&& usedBits i.op
      ∧ (encode i).a = (if usesA i.op then c.a else 0)
      ∧ (encode i).b = (if usesB i.op then c.b else 0)
      ∧ (encode i).bytes = (if usesBytes i.op then c.bytes else [])

/-- The fields of `CW` and the operands a rule does not use change nothing (30_encoding.md R40, 10_state.md R21). -/
def Obligations.UnusedFieldsAreIgnored : Prop :=
  ∀ (c d : Command) (i : Instr), decode c = .instr i →
    d.cw &&& usedBits i.op = c.cw &&& usedBits i.op →
    (usesA i.op = true → d.a = c.a) → (usesB i.op = true → d.b = c.b) →
    (usesBytes i.op = true → d.bytes = c.bytes) →
    decode d = .instr i

/-- The opcode map as match and mask over the command word: each opcode selects its command, and nothing else does
(30_encoding.md R42). -/
def Obligations.OpcodeMapSelectsEachCommand : Prop :=
  ∀ c : Command,
    (c.cw &&& 0xFF0000FF = 0x01 ↔ ∃ i, decode c = .instr i ∧ i.op = .pack7)
    ∧ (c.cw &&& 0xFF0000FF = 0x02 ↔ ∃ i, decode c = .instr i ∧ i.op = .nibSplit)
    ∧ (c.cw &&& 0xFF0000FF = 0x03 ↔ ∃ i, decode c = .instr i ∧ i.op = .packRuns)
    ∧ (c.cw &&& 0xFF0000FF = 0x04 ↔ ∃ i, decode c = .instr i ∧ i.op = .unpack128)
    ∧ (c.cw &&& 0xFF0000FF = 0x05 ↔ ∃ i, decode c = .instr i ∧ i.op = .checksum)
    ∧ (c.cw &&& 0xFF0000FF = 0x06 ↔ ∃ i, decode c = .instr i ∧ i.op = .encColor)
    ∧ (c.cw &&& 0xFF0000FF = 0x08 ↔ ∃ i, decode c = .instr i ∧ i.op = .addrUc)
    ∧ (c.cw &&& 0xFF0000FF = 0x11 ↔ ∃ i, decode c = .instr i ∧ i.op = .buildRq1)
    ∧ (c.cw &&& 0xFF0000FF = 0x12 ↔ ∃ i, decode c = .instr i ∧ i.op = .buildDt1)
    ∧ (c.cw &&& 0xFF0000FF = 0x13 ↔ ∃ i, decode c = .instr i ∧ i.op = .buildIdReq)
    ∧ (c.cw &&& 0xFF0000FF = 0x20 ↔ ∃ i, decode c = .instr i ∧ i.op = .feed)
    ∧ (c.cw &&& 0xFF0000FF = 0x21 ↔ ∃ i, decode c = .instr i ∧ i.op = .decodeId)

/-- Command words written out by hand from 95_test_vectors.md part 2 and 30_encoding.md R40 (a sanity statement). -/
def Obligations.SpecCommandWordsDecode : Prop :=
  decode ⟨0x00002803, 0xABCD, 0, []⟩ = .instr (.packRuns 8 2 0xABCD)
    ∧ decode ⟨0x00FFFF01, 0x01001210, 0, []⟩ = .instr (.pack7 0x01001210)
    ∧ decode ⟨0x00000008, 0, 4, []⟩ = .instr (.addrUc 4)
    ∧ decode ⟨0x00900011, 0, 4, []⟩ = .instr (.buildRq1 true 0x10 0 4)
    ∧ decode ⟨0x00100011, 0, 4, []⟩ = .instr (.buildRq1 false 0x10 0 4)
    ∧ decode ⟨0x00000020, 0, 0, [0xF0]⟩ = .instr (.feed [0xF0])
    ∧ decode ⟨0x01000001, 0, 0, []⟩ = .illegal .reservedBits
    ∧ decode ⟨0x00000007, 0, 0, []⟩ = .illegal .reservedOpcode

/-- A step whose oldest input is a command runs that command in the state without that input (10_state.md R13; that the
host's commands stand in a list is the model's choice, assumption 1), and when the command fits the block and decodes,
what runs is its own meaning (60_exceptions.md R98). -/
def Obligations.StepRunsTheDecodedCommand : Prop :=
  ∀ (s : State) (c : Command) (rest : List HostInput), s.inputs = .command c :: rest →
    step s = runCommand c { s with inputs := rest }
      ∧ ∀ i : Instr, c.bytes.length ≤ s.cfg.sMax → decode c = .instr i → step s = exec i { s with inputs := rest }

/-- A command word with reserved bits set, or with a reserved opcode, completes with ILLEGAL_COMMAND: no state changes
and only `STATUS` is written (30_encoding.md R41, R43). -/
def Obligations.ReservedCommandWordsAreIllegal : Prop :=
  ∀ (s : State) (c : Command), c.bytes.length ≤ s.cfg.sMax →
    (c.cw.extractLsb' 24 8 ≠ 0 ∨ ReservedOpcode (c.cw.extractLsb' 0 8)) →
    runCommand c s = .next { s with resp := { Response.noValue with status := some 0xF } }

/-- A command whose `S` is longer than `S_MAX` is refused, whatever its command word (60_exceptions.md R98 item 1). -/
def Obligations.OverlongOperandIsRefused : Prop :=
  ∀ (s : State) (c : Command) (rest : List HostInput),
    s.inputs = .command c :: rest → s.cfg.sMax < c.bytes.length →
    step s = .refused .operandTooLong

/-- The reset input (70_reset_and_hazards.md R103): whatever the assembler held is dropped with no status and no
emission, the configuration stays. That it is an entry of the list of inputs and leaves the later entries pending is the
model's choice (assumptions 1 and 13). -/
def Obligations.ResetInputClearsAssemblerAndResponse : Prop :=
  ∀ (s : State) (rest : List HostInput), s.inputs = .reset :: rest →
    step s = .next { asm := .idle, buf := [], cfg := s.cfg, resp := Response.noValue, inputs := rest }

/-- A host read of a field without a value faults, and any other read changes nothing but the list of inputs
(10_state.md R23, 20_memory.md R34). That a read is a step of the machine is the model's choice (assumption 4). -/
def Obligations.ReadFaultsOnlyWithoutValue : Prop :=
  ∀ (s : State) (f : RespField) (rest : List HostInput), s.inputs = .read f :: rest →
    (s.resp.read f = none → step s = .fault (.unwrittenResponse f))
      ∧ ∀ v, s.resp.read f = some v → step s = .next { s with inputs := rest }

/-- With no host input pending there is no step (10_state.md R13); that this is a refusal is the model's choice
(assumption 5). -/
def Obligations.NothingHappensBetweenCommands : Prop :=
  ∀ s : State, s.inputs = [] → step s = .refused .noPendingInput

/-! ### ByteCodec -/

/-- PACK7 (40_bytecodec.md R57). -/
def Obligations.Pack7PacksSevenBitGroups : Prop :=
  (∀ c : Command, c.cw.extractLsb' 24 8 = 0 → c.cw.extractLsb' 0 8 = 0x01 → decode c = .instr (.pack7 c.a))
    ∧ ∀ (a : Word) (s : State),
      exec (.pack7 a) s =
        .next { s with resp := { Response.noValue with status := some 0x0, rb := some (sevenBitGroups a) } }

/-- NIBSPLIT (40_bytecodec.md R58). -/
def Obligations.NibSplitSplitsNibbles : Prop :=
  (∀ c : Command, c.cw.extractLsb' 24 8 = 0 → c.cw.extractLsb' 0 8 = 0x02 → decode c = .instr (.nibSplit c.a))
    ∧ ∀ (a : Word) (s : State),
      exec (.nibSplit a) s =
        .next { s with resp := { Response.noValue with status := some 0x0, rb := some (nibblesOf a) } }

/-- PACKRUNS (40_bytecodec.md R59): with `G` and `W` in 1 to 8, `W` bytes, and bit `j` of byte `i` is bit
`G*(W-1-i)+j` of `A` (0 above bit 31) for `j < G` and 0 above; otherwise ILLEGAL_COMMAND. -/
def Obligations.PackRunsPacksGroups : Prop :=
  (∀ c : Command, c.cw.extractLsb' 24 8 = 0 → c.cw.extractLsb' 0 8 = 0x03 →
      decode c = .instr (.packRuns (c.cw.extractLsb' 8 4) (c.cw.extractLsb' 12 4) c.a))
    ∧ (∀ (g w : BitVec 4) (a : Word) (s : State),
      1 ≤ g.toNat → g.toNat ≤ 8 → 1 ≤ w.toNat → w.toNat ≤ 8 →
      ∃ rb : Bytes,
        exec (.packRuns g w a) s =
          .next { s with resp := { Response.noValue with status := some 0x0, rb := some rb } }
        ∧ rb.length = w.toNat
        ∧ ∀ i j, i < w.toNat → j < 8 →
          (rb.getD i 0).getLsbD j = (decide (j < g.toNat) && a.getLsbD (g.toNat * (w.toNat - 1 - i) + j)))
    ∧ ∀ (g w : BitVec 4) (a : Word) (s : State),
      (g.toNat < 1 ∨ 8 < g.toNat ∨ w.toNat < 1 ∨ 8 < w.toNat) →
      exec (.packRuns g w a) s = .next { s with resp := { Response.noValue with status := some 0xF } }

/-- UNPACK128 (40_bytecodec.md R61): up to four bytes, each at its full value in its place of base 128, and no
truncation; more than four bytes: ILLEGAL_COMMAND. -/
def Obligations.Unpack128FoldsBytes : Prop :=
  (∀ c : Command, c.cw.extractLsb' 24 8 = 0 → c.cw.extractLsb' 0 8 = 0x04 → decode c = .instr (.unpack128 c.bytes))
    ∧ (∀ (bytes : Bytes) (s : State), bytes.length ≤ 4 →
      ∃ v : Word,
        exec (.unpack128 bytes) s = .next { s with resp := { Response.noValue with status := some 0x0, rv := some v } }
        ∧ v.toNat = base128Value bytes)
    ∧ ∀ (bytes : Bytes) (s : State), 4 < bytes.length →
      exec (.unpack128 bytes) s = .next { s with resp := { Response.noValue with status := some 0xF } }

/-- CHECKSUM (40_bytecodec.md R63, R64). -/
def Obligations.ChecksumCompletesTheSum : Prop :=
  (∀ c : Command, c.cw.extractLsb' 24 8 = 0 → c.cw.extractLsb' 0 8 = 0x05 → decode c = .instr (.checksum c.bytes))
    ∧ ∀ (bytes : Bytes) (s : State),
      ∃ v : Word,
        exec (.checksum bytes) s = .next { s with resp := { Response.noValue with status := some 0x0, rv := some v } }
        ∧ v.toNat = (128 - (bytes.map BitVec.toNat).sum % 128) % 128
        ∧ IsChecksumOf bytes v.toNat

/-- ENCCOLOR (40_bytecodec.md R65): three nibble splits in the order R, G, B; the two meaningful nibbles of a channel
make the channel again; any other number of bytes: ILLEGAL_COMMAND. -/
def Obligations.EncColorSplitsChannels : Prop :=
  (∀ c : Command, c.cw.extractLsb' 24 8 = 0 → c.cw.extractLsb' 0 8 = 0x06 → decode c = .instr (.encColor c.bytes))
    ∧ (∀ (red green blue : Byte) (s : State),
      exec (.encColor [red, green, blue]) s =
        .next { s with resp := { Response.noValue with
          status := some 0x0
          rb := some [0, 0, (red.extractLsb' 4 4).setWidth 8, (red.extractLsb' 0 4).setWidth 8,
            0, 0, (green.extractLsb' 4 4).setWidth 8, (green.extractLsb' 0 4).setWidth 8,
            0, 0, (blue.extractLsb' 4 4).setWidth 8, (blue.extractLsb' 0 4).setWidth 8] } })
    ∧ (∀ x : Byte, ((x.extractLsb' 4 4).setWidth 8 <<< 4 ||| (x.extractLsb' 0 4).setWidth 8 : Byte) = x)
    ∧ ∀ (bytes : Bytes) (s : State), bytes.length ≠ 3 →
      exec (.encColor bytes) s = .next { s with resp := { Response.noValue with status := some 0xF } }

/-- The round-trip laws of 40_bytecodec.md R62, through the commands: (a), (b) UNPACK128 of what PACK7 left is the
value modulo 2^28, and so the value itself below 2^28; (c) PACK7 of what UNPACK128 left is the four bytes, when all are
7-bit; (d) the counterexample with a byte of 0x80. -/
def Obligations.PackAndUnpackAreInverse : Prop :=
  (∀ (a : Word) (s t : State) (rb : Bytes), exec (.pack7 a) s = .next t → t.resp.rb = some rb →
      ∃ v : Word,
        exec (.unpack128 rb) t = .next { t with resp := { Response.noValue with status := some 0x0, rv := some v } }
        ∧ v.toNat = a.toNat % 2 ^ 28
        ∧ (a.toNat < 2 ^ 28 → v = a))
    ∧ (∀ (bytes : Bytes) (s t : State) (v : Word), bytes.length = 4 → (∀ x ∈ bytes, x.toNat ≤ 0x7F) →
      exec (.unpack128 bytes) s = .next t → t.resp.rv = some v →
      exec (.pack7 v) t = .next { t with resp := { Response.noValue with status := some 0x0, rb := some bytes } })
    ∧ (∀ a : Nat, unpackBase128 (packBitRuns a 7 4) = a % 2 ^ 28)
    ∧ packBitRuns (unpackBase128 [0x00, 0x00, 0x01, 0x80]) 7 4 = [0x00, 0x00, 0x02, 0x00]

/-! ### AddressSpace -/

/-- ADDRUC (41_addressspace.md R68 with the formula of R67): on a well-formed configuration the address of every index
0 to 4, below 2^28; any other index: INDEX_OUT_OF_RANGE. -/
def Obligations.AddrUcComputesUserColorAddress : Prop :=
  (∀ c : Command, c.cw.extractLsb' 24 8 = 0 → c.cw.extractLsb' 0 8 = 0x08 → decode c = .instr (.addrUc c.b))
    ∧ (∀ (i : Fin 5) (s : State), s.cfg.wellFormed = true →
      ∃ v : Word,
        exec (.addrUc (BitVec.ofNat 32 i.val)) s =
          .next { s with resp := { Response.noValue with status := some 0x0, rv := some v } }
        ∧ v.toNat = s.cfg.setupBase.toNat + s.cfg.colorTableBase.toNat
            + s.cfg.userPaletteSlotIndex.get i * s.cfg.colorTableStep.toNat + s.cfg.colorRgbOffset.toNat
        ∧ v.toNat < 2 ^ 28)
    ∧ ∀ (b : Word) (s : State), 4 < b.toNat →
      exec (.addrUc b) s = .next { s with resp := { Response.noValue with status := some 0x2 } }

/-- The source's golden value (41_addressspace.md R67): on the constructed block, user colour 0 is at 0x01001210,
whatever the `OPEN` parameters are (a sanity statement). -/
def Obligations.UserColorZeroHasTheGoldenAddress : Prop :=
  exec (.addrUc 0) State.reset =
    .next { State.reset with resp := { Response.noValue with status := some 0x0, rv := some 0x01001210 } }

/-! ### MessageBuilder -/

/-- BUILDRQ1 (42_messagebuilder.md R70, R71; the layout of 30_encoding.md R47). -/
def Obligations.BuildRq1ComposesTheRequest : Prop :=
  (∀ c : Command, c.cw.extractLsb' 24 8 = 0 → c.cw.extractLsb' 0 8 = 0x11 →
      decode c = .instr (.buildRq1 (c.cw.getLsbD 23) (c.cw.extractLsb' 16 7) c.a c.b))
    ∧ (∀ (dev : BitVec 7) (a b : Word) (s : State),
      ∃ (ck : Byte) (frame wire : Bytes),
        exec (.buildRq1 true dev a b) s =
          .next { s with resp := { Response.noValue with
            status := some 0x0, frame := some frame, wire := some wire } }
        ∧ frame = [0xF0, 0x41, dev.setWidth 8] ++ s.cfg.modelId ++ [0x11] ++ sevenBitGroups a ++ sevenBitGroups b
            ++ [ck, 0xF7]
        ∧ IsChecksumOf (sevenBitGroups a ++ sevenBitGroups b) ck.toNat
        ∧ PaddedTo4 frame wire
        ∧ frame.length = 14 + s.cfg.modelId.length)
    ∧ ∀ (dev : BitVec 7) (a b : Word) (s : State),
      exec (.buildRq1 false dev a b) s = .next { s with resp := { Response.noValue with status := some 0x3 } }

/-- BUILDDT1 (42_messagebuilder.md R70, R72; the layout of 30_encoding.md R48): the data is copied unchanged. -/
def Obligations.BuildDt1ComposesTheDataSet : Prop :=
  (∀ c : Command, c.cw.extractLsb' 24 8 = 0 → c.cw.extractLsb' 0 8 = 0x12 →
      decode c = .instr (.buildDt1 (c.cw.getLsbD 23) (c.cw.extractLsb' 16 7) c.a c.bytes))
    ∧ (∀ (dev : BitVec 7) (a : Word) (bytes : Bytes) (s : State),
      ∃ (ck : Byte) (frame wire : Bytes),
        exec (.buildDt1 true dev a bytes) s =
          .next { s with resp := { Response.noValue with
            status := some 0x0, frame := some frame, wire := some wire } }
        ∧ frame = [0xF0, 0x41, dev.setWidth 8] ++ s.cfg.modelId ++ [0x12] ++ sevenBitGroups a ++ bytes ++ [ck, 0xF7]
        ∧ IsChecksumOf (sevenBitGroups a ++ bytes) ck.toNat
        ∧ PaddedTo4 frame wire
        ∧ frame.length = 10 + s.cfg.modelId.length + bytes.length)
    ∧ ∀ (dev : BitVec 7) (a : Word) (bytes : Bytes) (s : State),
      exec (.buildDt1 false dev a bytes) s = .next { s with resp := { Response.noValue with status := some 0x3 } }

/-- BUILDIDREQ (42_messagebuilder.md R73, 30_encoding.md R49). -/
def Obligations.BuildIdReqComposesTheInquiry : Prop :=
  (∀ c : Command, c.cw.extractLsb' 24 8 = 0 → c.cw.extractLsb' 0 8 = 0x13 → decode c = .instr .buildIdReq)
    ∧ ∀ s : State,
      exec .buildIdReq s =
        .next { s with resp := { Response.noValue with
          status := some 0x0
          frame := some [0xF0, 0x7E, 0x7F, 0x06, 0x01, 0xF7]
          wire := some [0xF0, 0x7E, 0x7F, 0x06, 0x01, 0xF7, 0x00, 0x00] } }

/-- The recovery law (42_messagebuilder.md R74) for both parameter frames: every part of what was put in stands at its
offset and comes out again. -/
def Obligations.BuiltFramesRecoverTheirOperands : Prop :=
  (∀ (dev : BitVec 7) (a : Word) (bytes : Bytes) (s t : State) (f : Bytes),
      exec (.buildDt1 true dev a bytes) s = .next t → t.resp.frame = some f →
      f[2]? = some (dev.setWidth 8)
        ∧ (f.drop 3).take s.cfg.modelId.length = s.cfg.modelId
        ∧ f[3 + s.cfg.modelId.length]? = some 0x12
        ∧ unpackBase128 ((f.drop (4 + s.cfg.modelId.length)).take 4) = a.toNat % 2 ^ 28
        ∧ (f.drop (8 + s.cfg.modelId.length)).take bytes.length = bytes
        ∧ f.length = 8 + s.cfg.modelId.length + bytes.length + 2
        ∧ ∃ ck : Byte, f[f.length - 2]? = some ck
          ∧ ck.toNat = checksumOf ((f.drop (4 + s.cfg.modelId.length)).take (4 + bytes.length)))
    ∧ ∀ (dev : BitVec 7) (a b : Word) (s t : State) (f : Bytes),
      exec (.buildRq1 true dev a b) s = .next t → t.resp.frame = some f →
      f[2]? = some (dev.setWidth 8)
        ∧ (f.drop 3).take s.cfg.modelId.length = s.cfg.modelId
        ∧ f[3 + s.cfg.modelId.length]? = some 0x11
        ∧ unpackBase128 ((f.drop (4 + s.cfg.modelId.length)).take 4) = a.toNat % 2 ^ 28
        ∧ unpackBase128 ((f.drop (8 + s.cfg.modelId.length)).take 4) = b.toNat % 2 ^ 28
        ∧ f.length = 14 + s.cfg.modelId.length
        ∧ ∃ ck : Byte, f[f.length - 2]? = some ck
          ∧ ck.toNat = checksumOf ((f.drop (4 + s.cfg.modelId.length)).take 8)

/-- Every frame a builder composes is padded to a multiple of 4 by 0 to 3 zero bytes, and only builders write `WIRE`
(42_messagebuilder.md R69, 10_state.md R22). -/
def Obligations.EveryComposedFrameIsPadded : Prop :=
  ∀ (i : Instr) (s t : State) (wire : Bytes), exec i s = .next t → t.resp.wire = some wire →
    (i.op = .buildRq1 ∨ i.op = .buildDt1 ∨ i.op = .buildIdReq)
      ∧ ∃ frame, t.resp.frame = some frame ∧ PaddedTo4 frame wire

/-- On a well-formed configuration the builders compose conforming frames from 7-bit data (20_memory.md R32,
42_messagebuilder.md R71): everything but the data of BUILDDT1 is 7-bit by itself. -/
def Obligations.BuildersComposeConformingFrames : Prop :=
  ∀ (i : Instr) (s t : State) (frame : Bytes), s.cfg.wellFormed = true →
    (i.op = .buildRq1 ∨ i.op = .buildDt1 ∨ i.op = .buildIdReq) →
    (∀ x ∈ i.byteOperand, x.toNat ≤ 0x7F) →
    exec i s = .next t → t.resp.frame = some frame →
    ConformingFrame frame

/-! ### FrameAssembler -/

/-- The command word of FEED, and the empty fragment (43_frameassembler.md R77): nothing changes and no frame is
emitted. -/
def Obligations.FeedOfEmptyFragmentChangesNothing : Prop :=
  (∀ c : Command, c.cw.extractLsb' 24 8 = 0 → c.cw.extractLsb' 0 8 = 0x20 → decode c = .instr (.feed c.bytes))
    ∧ ∀ s : State,
      exec (.feed []) s =
        .next { s with resp := { Response.noValue with status := some 0x0, fv := some false } }

/-- In `Idle`, a fragment whose first byte is not `0xF0` is dropped, even if it holds `0xF7`
(43_frameassembler.md R78). -/
def Obligations.FeedInIdleDropsUnstartedFragments : Prop :=
  ∀ (s : State) (bytes : Bytes), s.asm = .idle → bytes ≠ [] → bytes.head? ≠ some 0xF0 →
    exec (.feed bytes) s =
      .next { s with resp := { Response.noValue with status := some 0x0, fv := some false } }

/-- A fragment without `0xF7` that fits the cap is kept in the buffer, in `Collecting`, and emits nothing; past a
bounded cap FEED is refused, with or without `0xF7` (43_frameassembler.md R85; the buffer by R79, R80). -/
def Obligations.FeedKeepsUnterminatedFragments : Prop :=
  (∀ (s : State) (bytes buf : Bytes), TakenInto s bytes buf → (0xF7 : Byte) ∉ bytes → WithinCap s.cfg buf →
      exec (.feed bytes) s =
        .next { s with asm := .collecting, buf := buf,
                       resp := { Response.noValue with status := some 0x0, fv := some false } })
    ∧ ∀ (s : State) (bytes buf : Bytes) (cap : Nat), TakenInto s bytes buf → s.cfg.bufCap = some cap →
      cap < buf.length → exec (.feed bytes) s = .refused .bufferCap

/-- A fragment with `0xF7` ends the collection (43_frameassembler.md R81): the candidate is the whole buffer without all
its trailing `0x00` bytes (R82); an accepted frame is emitted (R83), any other candidate is dropped with
FRAME_FORMAT_ERROR (R84); in both cases the assembler is `Idle` and empty. -/
def Obligations.FeedEmitsOrDropsTheTrimmedBuffer : Prop :=
  ∀ (s : State) (bytes buf candidate : Bytes) (n : Nat), TakenInto s bytes buf → (0xF7 : Byte) ∈ bytes →
    WithinCap s.cfg buf → buf = candidate ++ List.replicate n 0x00 → candidate.getLast? ≠ some 0x00 →
    (AcceptedFrame s.cfg candidate →
      exec (.feed bytes) s =
        .next { s with asm := .idle, buf := [],
                       resp := { Response.noValue with status := some 0x0, frame := some candidate, fv := some true } })
    ∧ (¬ AcceptedFrame s.cfg candidate →
      exec (.feed bytes) s =
        .next { s with asm := .idle, buf := [],
                       resp := { Response.noValue with status := some 0x1, fv := some false } })

/-- An emitted frame starts with `0xF0`, ends with `0xF7`, and conforms under `CHECK_INTERIOR`
(43_frameassembler.md R83). -/
def Obligations.EmittedFramesAreFramed : Prop :=
  ∀ (i : Instr) (s t : State), exec i s = .next t → t.resp.fv = some true →
    ∃ frame, t.resp.frame = some frame ∧ AcceptedFrame s.cfg frame ∧ t.asm = .idle ∧ t.buf = []

/-- Two fragments, the first of which starts a frame and holds no `0xF7`, leave what their concatenation in one
fragment leaves (43_frameassembler.md R79 to R81), where no restart cuts between them and no cap is passed. -/
def Obligations.FragmentsFedInTurnAreTheirConcatenation : Prop :=
  ∀ (s t : State) (first second : Bytes), s.asm = .idle → first.head? = some 0xF0 → (0xF7 : Byte) ∉ first →
    second ≠ [] → (s.cfg.restartOnF0 = false ∨ second.head? ≠ some 0xF0) → WithinCap s.cfg (first ++ second) →
    exec (.feed first) s = .next t →
    exec (.feed second) t = exec (.feed (first ++ second)) s

/-- What a builder put on the wire, fed back in one fragment, comes out as the builder's frame (42_messagebuilder.md
R69 with 43_frameassembler.md R81 to R83): the composer and the assembler agree. This is `exec`, which does not test
`S_MAX` (assumption 6): as a host's command, a `WIRE` longer than `S_MAX` is refused (`OverlongOperandIsRefused`); with
`S_MAX = 16` every RQ1 `WIRE` of the default `MODEL_ID`, 20 bytes, is. -/
def Obligations.FeedingAComposedWireEmitsItsFrame : Prop :=
  ∀ (i : Instr) (s t : State) (frame wire : Bytes), s.cfg.wellFormed = true → s.asm = .idle →
    (s.cfg.checkInterior = true → ∀ x ∈ i.byteOperand, x.toNat ≤ 0x7F) →
    exec i s = .next t → t.resp.frame = some frame → t.resp.wire = some wire → WithinCap s.cfg wire →
    exec (.feed wire) t =
      .next { t with asm := .idle, buf := [],
                     resp := { Response.noValue with status := some 0x0, frame := some frame, fv := some true } }

/-- DECODEID (43_frameassembler.md R88, the function of R87): every field of a 15-byte reply, and "not an identity
reply" for everything else, with status OK in both cases. -/
def Obligations.DecodeIdReadsIdentityReplies : Prop :=
  (∀ c : Command, c.cw.extractLsb' 24 8 = 0 → c.cw.extractLsb' 0 8 = 0x21 → decode c = .instr (.decodeId c.bytes))
    ∧ (∀ (dev mfr f0 f1 m0 m1 v0 v1 v2 v3 : Byte) (s : State),
      exec (.decodeId [0xF0, 0x7E, dev, 0x06, 0x02, mfr, f0, f1, m0, m1, v0, v1, v2, v3, 0xF7]) s =
        .next { s with resp := { Response.noValue with
          status := some 0x0, idv := some true, idDev := some dev, idMfr := some mfr, idFam := some (f0, f1),
          idMdl := some (m0, m1), idVer := some (v0, v1, v2, v3) } })
    ∧ ∀ (bytes : Bytes) (s : State),
      (¬ ∃ dev mfr f0 f1 m0 m1 v0 v1 v2 v3 : Byte,
        bytes = [0xF0, 0x7E, dev, 0x06, 0x02, mfr, f0, f1, m0, m1, v0, v1, v2, v3, 0xF7]) →
      exec (.decodeId bytes) s =
        .next { s with resp := { Response.noValue with status := some 0x0, idv := some false } }

/-! ### The whole machine -/

/-- `exec` answers a next state for every command but a FEED under a bounded `BUF_CAP`, never faults, and refuses only
such a FEED (43_frameassembler.md R85, 60_exceptions.md R90); of a FEED within the bounded cap,
`FeedKeepsUnterminatedFragments` and the three statements beside it say what it does. That `S_MAX` does not stop `exec`
is the model's choice (assumption 6): a step refuses an `S` that is too long before `exec`. -/
def Obligations.OnlyFeedUnderABoundedCapIsRefusedByExec : Prop :=
  ∀ (i : Instr) (s : State),
    ((∀ bytes, i ≠ .feed bytes) ∨ s.cfg.bufCap = none → ∃ t, exec i s = .next t)
      ∧ (∀ r, exec i s ≠ .fault r)
      ∧ ∀ r, exec i s = .refused r → ∃ bytes cap, i = .feed bytes ∧ s.cfg.bufCap = some cap ∧ r = .bufferCap

/-- Every command other than FEED is a function of its operands and the configuration, and changes nothing but the
response (20_memory.md R34). -/
def Obligations.CommandsOtherThanFeedArePure : Prop :=
  ∀ (i : Instr) (s u : State), (∀ bytes, i ≠ .feed bytes) → s.cfg = u.cfg →
    ∃ r : Response, exec i s = .next { s with resp := r } ∧ exec i u = .next { u with resp := r }

/-- No command reads the response an earlier command left: whatever it was, the command answers the same
(10_state.md R14, R23, R24; 60_exceptions.md R99). -/
def Obligations.EarlierResponsesAreNeverRead : Prop :=
  ∀ (i : Instr) (s : State) (r : Response), exec i { s with resp := r } = exec i s

/-- No step writes the configuration (10_state.md R19). -/
def Obligations.NoStepWritesTheConfiguration : Prop :=
  ∀ s t : State, step s = .next t → t.cfg = s.cfg

/-- Only FEED and reset write `ASM` and `BUF` (10_state.md R16, R17). -/
def Obligations.OnlyFeedAndResetWriteTheAssembler : Prop :=
  ∀ s t : State, step s = .next t → (t.asm ≠ s.asm ∨ t.buf ≠ s.buf) →
    (∃ rest, s.inputs = .reset :: rest)
      ∨ ∃ c bytes rest, s.inputs = .command c :: rest ∧ decode c = .instr (.feed bytes)

/-- Every step keeps the invariant: a well-formed configuration, the assembler's invariant (10_state.md R17,
43_frameassembler.md R79), and a response the block can hold (10_state.md R23, 60_exceptions.md R90, R91). -/
def Obligations.EveryStepKeepsTheInvariant : Prop :=
  ∀ s t : State, Inv s → step s = .next t → Inv t

/-- The block constructed over any well-formed configuration meets the invariant, and so does the machine right after
reset, whatever the `OPEN` parameters are (10_state.md R20, R27). -/
def Obligations.ResetMeetsTheInvariant : Prop :=
  (∀ c : Config, c.wellFormed = true → Inv (State.construct c)) ∧ Inv State.reset

/-- The reset values (10_state.md R27) and the defaults of 00_scope.md R7 in the reset configuration. That the reset
state is the block over the defaults is the model's choice (assumption 2). -/
def Obligations.ResetValuesAreTheSpecs : Prop :=
  State.reset.asm = .idle ∧ State.reset.buf = [] ∧ State.reset.resp = Response.noValue
    ∧ State.reset.inputs = []
    ∧ State.reset.cfg.modelId = [0x00, 0x00, 0x00, 0x00, 0x16]
    ∧ State.reset.cfg.setupBase = 0x01000000 ∧ State.reset.cfg.colorTableBase = 0x0800
    ∧ State.reset.cfg.colorTableStep = 0x0100 ∧ State.reset.cfg.colorRgbOffset = 0x10
    ∧ State.reset.cfg.userPaletteSlotIndex.get 0 = 10
    ∧ State.reset.cfg.restartOnF0 = false ∧ State.reset.cfg.checkInterior = false
    ∧ State.reset.cfg.bufCap = none ∧ 16 ≤ State.reset.cfg.sMax

/-- Every command that is not refused writes `STATUS`, with a code the block produces (10_state.md R22; 60_exceptions.md
R91, R97): never DEVICE_NOT_FOUND, never a reserved code. -/
def Obligations.EveryCommandWritesAProducedStatus : Prop :=
  ∀ (c : Command) (s t : State), runCommand c s = .next t →
    ∃ code, t.resp.status = some code ∧ ProducedStatus code

/-- Exactly when INDEX_OUT_OF_RANGE, IDENTITY_NOT_ESTABLISHED and ILLEGAL_COMMAND are raised by a decoded command
(60_exceptions.md R91, R92, R94, R95), and that only FEED raises FRAME_FORMAT_ERROR; exactly when it does stands in
`FeedEmitsOrDropsTheTrimmedBuffer`. -/
def Obligations.ErrorsComeFromTheirCommands : Prop :=
  ∀ (i : Instr) (s t : State), exec i s = .next t →
    (t.resp.status = some 0x1 → ∃ bytes, i = .feed bytes)
      ∧ (t.resp.status = some 0x2 ↔ ∃ b : Word, i = .addrUc b ∧ 4 < b.toNat)
      ∧ (t.resp.status = some 0x3 ↔
          (∃ dev a b, i = .buildRq1 false dev a b) ∨ ∃ dev a bytes, i = .buildDt1 false dev a bytes)
      ∧ (t.resp.status = some 0xF ↔ i.wellFormed = false)

/-- Errors are precise (60_exceptions.md R90): an error status stands alone, but for `FV = 0` beside
FRAME_FORMAT_ERROR, and changes no state, but for the assembler left `Idle` and empty by FRAME_FORMAT_ERROR. -/
def Obligations.ErrorsWriteNothingElse : Prop :=
  ∀ (c : Command) (s t : State) (code : BitVec 4), runCommand c s = .next t → t.resp.status = some code → code ≠ 0x0 →
    t = if code = 0x1 then
          { s with asm := .idle, buf := [],
                   resp := { Response.noValue with status := some 0x1, fv := some false } }
        else { s with resp := { Response.noValue with status := some code } }

/-- A byte stream containing no `0xF7` never emits a frame (43_frameassembler.md R85): in a run of FEED commands, in
whatever state it starts, every response has `FV = 0`, `FRAME` holds no value, and the status is OK. -/
def Obligations.NoTerminatorNoFrame : Prop :=
  ∀ (fragments : List Bytes) (s t : State) (responses : List Response),
    (∀ fragment ∈ fragments, (0xF7 : Byte) ∉ fragment) →
    runCommands (fragments.map fun fragment => encode (.feed fragment)) s = .next (t, responses) →
    ∀ r ∈ responses, r.fv = some false ∧ r.frame = none ∧ r.status = some 0x0

/-- Interleaving other commands with FEED commands changes no FEED result (20_memory.md R37): the run of the FEED
commands alone ends with the same `ASM` and `BUF` and gives the same responses. -/
def Obligations.OtherCommandsChangeNoFeedResult : Prop :=
  ∀ (commands : List Command) (s t : State) (responses : List Response),
    runCommands commands s = .next (t, responses) →
    ∃ u : State,
      runCommands (commands.filter isFeed) s =
        .next (u, ((commands.zip responses).filter fun p => isFeed p.1).map Prod.snd)
      ∧ u.asm = t.asm ∧ u.buf = t.buf

/-- SETCOLOR (30_encoding.md R53): a bad index stops it with INDEX_OUT_OF_RANGE, whether or not the device id is
resolved; otherwise the last response is BUILDDT1's for the index's address and the colour's twelve bytes. -/
def Obligations.SetColorComposesTheColorFrame : Prop :=
  (∀ (dv : Bool) (dev : BitVec 7) (index : Word) (rgb : Bytes) (s : State), 4 < index.toNat →
      setColor dv dev index rgb s =
        .next ({ s with inputs := [], resp := { Response.noValue with status := some 0x2 } },
          [{ Response.noValue with status := some 0x2 }]))
    ∧ ∀ (dev : BitVec 7) (i : Fin 5) (red green blue : Byte) (s : State), s.cfg.wellFormed = true →
      ∃ (t : State) (address : Word) (data : Bytes) (r1 r2 r3 : Response),
        setColor true dev (BitVec.ofNat 32 i.val) [red, green, blue] s = .next (t, [r1, r2, r3])
        ∧ r1.rv = some address ∧ address.toNat = userColorAddress s.cfg i
        ∧ r2.rb = some data ∧ data = nibblesOf (red.setWidth 32) ++ nibblesOf (green.setWidth 32)
            ++ nibblesOf (blue.setWidth 32)
        ∧ exec (.buildDt1 true dev address data) { s with inputs := [] } = .next t ∧ t.resp = r3
        ∧ t.asm = s.asm ∧ t.buf = s.buf

/-- The command syntax (30_encoding.md R52): the line that writes a command stands for a command word that decodes to
it, for every command the syntax can write (a builder has `DV = 1`, or `NODEV`, which is `DV = 0` and `DEV = 0`). -/
def Obligations.WrittenLinesAssembleToTheirCommands : Prop :=
  ∀ i : Instr,
    (∀ dev a b, i = .buildRq1 false dev a b → dev = 0) → (∀ dev a bytes, i = .buildDt1 false dev a bytes → dev = 0) →
    ∃ c : Command, (AsmLine.ofInstr i).toCommand = some c ∧ decode c = .instr i
end

