-- ==== Sys2Proof/Laws/Decode.lean ====
section
/-! SUPPORT. The fields of a command word, the opcode map, and what the decoder can answer. -/

namespace Sys2Proof

/-- Each bit of a command word comes from its field (30_encoding.md R40). -/
theorem packWord_getLsbD (rsvd : BitVec 8) (dv : Bool) (dev : BitVec 7) (w g : BitVec 4) (op : BitVec 8) (k : Nat) :
    (packWord rsvd dv dev w g op).getLsbD k =
      if k < 8 then op.getLsbD k
      else if k < 12 then g.getLsbD (k - 8)
      else if k < 16 then w.getLsbD (k - 12)
      else if k < 23 then dev.getLsbD (k - 16)
      else if k < 24 then (BitVec.ofBool dv).getLsbD (k - 23)
      else rsvd.getLsbD (k - 24) := by
  unfold packWord
  simp only [BitVec.getLsbD_append]
  split_ifs <;> first | rfl | omega

@[simp] theorem fieldOp_packWord (rsvd : BitVec 8) (dv : Bool) (dev : BitVec 7) (w g : BitVec 4) (op : BitVec 8) :
    fieldOp (packWord rsvd dv dev w g op) = op := by
  refine BitVec.eq_of_getLsbD_eq fun i hi => ?_
  rw [fieldOp, BitVec.getLsbD_extractLsb', packWord_getLsbD]
  simp [hi]

@[simp] theorem fieldG_packWord (rsvd : BitVec 8) (dv : Bool) (dev : BitVec 7) (w g : BitVec 4) (op : BitVec 8) :
    fieldG (packWord rsvd dv dev w g op) = g := by
  refine BitVec.eq_of_getLsbD_eq fun i hi => ?_
  rw [fieldG, BitVec.getLsbD_extractLsb', packWord_getLsbD]
  simp [hi, show ¬ 8 + i < 8 by omega, show 8 + i < 12 by omega]

@[simp] theorem fieldW_packWord (rsvd : BitVec 8) (dv : Bool) (dev : BitVec 7) (w g : BitVec 4) (op : BitVec 8) :
    fieldW (packWord rsvd dv dev w g op) = w := by
  refine BitVec.eq_of_getLsbD_eq fun i hi => ?_
  rw [fieldW, BitVec.getLsbD_extractLsb', packWord_getLsbD]
  simp [hi, show ¬ 12 + i < 8 by omega, show ¬ 12 + i < 12 by omega, show 12 + i < 16 by omega]

@[simp] theorem fieldDev_packWord (rsvd : BitVec 8) (dv : Bool) (dev : BitVec 7) (w g : BitVec 4) (op : BitVec 8) :
    fieldDev (packWord rsvd dv dev w g op) = dev := by
  refine BitVec.eq_of_getLsbD_eq fun i hi => ?_
  rw [fieldDev, BitVec.getLsbD_extractLsb', packWord_getLsbD]
  simp [hi, show ¬ 16 + i < 8 by omega, show ¬ 16 + i < 12 by omega, show ¬ 16 + i < 16 by omega,
    show 16 + i < 23 by omega]

@[simp] theorem fieldDv_packWord (rsvd : BitVec 8) (dv : Bool) (dev : BitVec 7) (w g : BitVec 4) (op : BitVec 8) :
    fieldDv (packWord rsvd dv dev w g op) = dv := by
  rw [fieldDv, packWord_getLsbD]
  simp

@[simp] theorem fieldRsvd_packWord (rsvd : BitVec 8) (dv : Bool) (dev : BitVec 7) (w g : BitVec 4)
    (op : BitVec 8) : fieldRsvd (packWord rsvd dv dev w g op) = rsvd := by
  refine BitVec.eq_of_getLsbD_eq fun i hi => ?_
  rw [fieldRsvd, BitVec.getLsbD_extractLsb', packWord_getLsbD]
  simp [hi, show ¬ 24 + i < 8 by omega, show ¬ 24 + i < 12 by omega, show ¬ 24 + i < 16 by omega,
    show ¬ 24 + i < 23 by omega]

/-- The shifted sum of 30_encoding.md R40 is the word of the six fields. -/
theorem packWord_eq_shifts (rsvd : BitVec 8) (dv : Bool) (dev : BitVec 7) (w g : BitVec 4) (op : BitVec 8) :
    packWord rsvd dv dev w g op =
      rsvd.setWidth 32 <<< 24 ||| (BitVec.ofBool dv).setWidth 32 <<< 23 ||| dev.setWidth 32 <<< 16
        ||| w.setWidth 32 <<< 12 ||| g.setWidth 32 <<< 8 ||| op.setWidth 32 := by
  refine BitVec.eq_of_getLsbD_eq fun i hi => ?_
  rw [packWord_getLsbD]
  simp only [BitVec.getLsbD_or, BitVec.getLsbD_shiftLeft, BitVec.getLsbD_setWidth]
  interval_cases i <;> simp [BitVec.getLsbD_of_ge]

/-- Each opcode selects its row (30_encoding.md R42). -/
@[simp] theorem Op.ofCode_code (op : Op) : Op.ofCode op.code = some op := by
  cases op <;> decide

/-- A row is selected by its own opcode only (30_encoding.md R42). -/
theorem Op.code_of_ofCode {code : BitVec 8} {op : Op} (h : Op.ofCode code = some op) : op.code = code := by
  simpa using List.find?_some h

/-- No two rows of the opcode map share an opcode (30_encoding.md R42). -/
theorem Op.table_codes_distinct : Op.table.Pairwise fun p q => p.code ≠ q.code := by
  decide

@[simp] theorem Op.withOperands_op (op : Op) (c : Command) : (op.withOperands c).op = op := by
  cases op <;> rfl

/-- Everything the decoder can answer (60_exceptions.md R98 items 2, 3). -/
theorem decode_cases (c : Command) :
    (decode c = .illegal .reservedBits ∧ fieldRsvd c.cw ≠ 0)
      ∨ (decode c = .illegal .reservedOpcode ∧ fieldRsvd c.cw = 0 ∧ Op.ofCode (fieldOp c.cw) = none)
      ∨ ∃ op : Op, decode c = .instr (op.withOperands c) ∧ fieldRsvd c.cw = 0 ∧ fieldOp c.cw = op.code := by
  unfold decode
  by_cases hr : fieldRsvd c.cw = 0
  · rw [if_neg (by simpa using hr)]
    cases ho : Op.ofCode (fieldOp c.cw) with
    | none => exact .inr (.inl ⟨rfl, hr, rfl⟩)
    | some op => exact .inr (.inr ⟨op, rfl, hr, (Op.code_of_ofCode ho).symm⟩)
  · exact .inl ⟨if_pos hr, hr⟩

/-- A command word with no reserved bit and an opcode of the map decodes to that command. -/
theorem decode_of_fields {c : Command} {op : Op} (hr : fieldRsvd c.cw = 0) (ho : fieldOp c.cw = op.code) :
    decode c = .instr (op.withOperands c) := by
  simp [decode, hr, ho]

/-- What decoded to a command has its opcode and no reserved bit. -/
theorem fields_of_decode {c : Command} {i : Instr} (h : decode c = .instr i) :
    fieldRsvd c.cw = 0 ∧ fieldOp c.cw = i.op.code ∧ i = i.op.withOperands c := by
  obtain ⟨hd, -⟩ | ⟨hd, -⟩ | ⟨op, hd, hr, ho⟩ := decode_cases c
  · simp [hd] at h
  · simp [hd] at h
  · obtain rfl : op.withOperands c = i := by simpa [hd] using h
    simp [hr, ho]

end Sys2Proof
end

