-- ==== Sys2Proof/Laws/Ops.lean ====
section
/-! SUPPORT. What the shared functions on integers and byte sequences do. -/

namespace Sys2Proof.Machine

/-! ### Packing and unpacking -/

@[simp] theorem packBitRuns_length (v g w : Nat) : (packBitRuns v g w).length = w := by
  simp [packBitRuns]

/-- One group as arithmetic: the value shifted down, modulo the group's size (40_bytecodec.md R56). -/
theorem packBitRuns_eq (v g w : Nat) :
    packBitRuns v g w = (List.range w).map fun i => BitVec.ofNat 8 (v / 2 ^ (g * (w - 1 - i)) % 2 ^ g) := by
  unfold packBitRuns
  refine List.map_congr_left fun i _ => ?_
  rw [Nat.one_shiftLeft, Nat.and_two_pow_sub_one_eq_mod, Nat.shiftRight_eq_div_pow]

/-- "Every byte is below `2^g`" (40_bytecodec.md R56). -/
theorem packBitRuns_lt {v g w : Nat} {x : Byte} (h : x ∈ packBitRuns v g w) : x.toNat < 2 ^ g := by
  rw [packBitRuns_eq] at h
  obtain ⟨i, -, rfl⟩ := List.mem_map.mp h
  rw [BitVec.toNat_ofNat]
  exact Nat.lt_of_le_of_lt (Nat.mod_le _ _) (Nat.mod_lt _ (Nat.two_pow_pos g))

/-- The four groups of `packBitRuns(v, 7, 4)`. -/
theorem packBitRuns_seven_four (v : Nat) :
    packBitRuns v 7 4 =
      [BitVec.ofNat 8 (v / 2 ^ 21 % 128), BitVec.ofNat 8 (v / 2 ^ 14 % 128), BitVec.ofNat 8 (v / 2 ^ 7 % 128),
        BitVec.ofNat 8 (v % 128)] := by
  simp [packBitRuns_eq, List.range_succ]

/-- The four groups of `packBitRuns(v, 4, 4)`. -/
theorem packBitRuns_four_four (v : Nat) :
    packBitRuns v 4 4 =
      [BitVec.ofNat 8 (v / 2 ^ 12 % 16), BitVec.ofNat 8 (v / 2 ^ 8 % 16), BitVec.ofNat 8 (v / 2 ^ 4 % 16),
        BitVec.ofNat 8 (v % 16)] := by
  simp [packBitRuns_eq, List.range_succ]

@[simp] theorem packAddress_length (v : Word) : (packAddress v).length = 4 := packBitRuns_length _ _ _

/-- A packed address is 7-bit safe (40_bytecodec.md R56). -/
theorem packAddress_sevenBit {v : Word} {x : Byte} (h : x ∈ packAddress v) : x.toNat ≤ 0x7F :=
  Nat.le_of_lt_succ (packBitRuns_lt h)

@[simp] theorem nibbleSplit_length (v : Nat) : (nibbleSplit v).length = 4 := packBitRuns_length _ _ _

@[simp] theorem unpackBase128_nil : unpackBase128 [] = 0 := rfl

/-- The last byte is the least significant (40_bytecodec.md R60). -/
theorem unpackBase128_append_singleton (bytes : Bytes) (x : Byte) :
    unpackBase128 (bytes ++ [x]) = unpackBase128 bytes * 128 + x.toNat := by
  simp [unpackBase128]

/-! ### Checksum -/

@[simp] theorem byteSum_nil : byteSum [] = 0 := rfl

@[simp] theorem byteSum_cons (x : Byte) (bytes : Bytes) : byteSum (x :: bytes) = x.toNat + byteSum bytes := rfl

/-- A checksum is below 128 (40_bytecodec.md R63). -/
theorem checksumOf_lt (payload : Bytes) : checksumOf payload < 128 :=
  Nat.mod_lt _ (by decide)

/-- The checksum byte loses nothing. -/
theorem checksumByte_toNat (payload : Bytes) : (checksumByte payload).toNat = checksumOf payload := by
  have h := checksumOf_lt payload
  rw [checksumByte, BitVec.toNat_ofNat]
  omega

/-! ### Frames -/

@[simp] theorem interior_cons_append (x y : Byte) (inner : Bytes) : interior (x :: (inner ++ [y])) = inner := by
  simp [interior]

/-- `pad4` adds 0 to 3 padding bytes and reaches a multiple of 4 (42_messagebuilder.md R69). -/
theorem pad4_eq (frame : Bytes) :
    ∃ n, n < 4 ∧ pad4 frame = frame ++ List.replicate n 0x00 ∧ (pad4 frame).length % 4 = 0 := by
  refine ⟨(4 - frame.length % 4) % 4, Nat.mod_lt _ (by decide), rfl, ?_⟩
  simp only [pad4, paddingAlignment, List.length_append, List.length_replicate]
  omega

/-- Trailing padding is trimmed, however much there is (43_frameassembler.md R82). -/
theorem trimPadding_append_replicate (c : Bytes) (n : Nat) :
    trimPadding (c ++ List.replicate n 0x00) = trimPadding c := by
  unfold trimPadding
  rw [List.reverse_append, List.reverse_replicate]
  congr 1
  induction n with
  | zero => rfl
  | succ n ih => simp [List.replicate_succ, paddingByte]

/-- Nothing is trimmed where the last byte is no padding (43_frameassembler.md R82). -/
theorem trimPadding_eq_self {c : Bytes} (h : c.getLast? ≠ some 0x00) : trimPadding c = c := by
  unfold trimPadding
  rcases List.eq_nil_or_concat c with rfl | ⟨front, x, rfl⟩
  · rfl
  · have hx : (x == paddingByte) = false := by simpa [paddingByte] using h
    simp [hx]

/-- Every sequence is what trimming leaves, and padding. -/
theorem trimPadding_spec (c : Bytes) :
    (∃ n, c = trimPadding c ++ List.replicate n 0x00) ∧ (trimPadding c).getLast? ≠ some 0x00 := by
  induction c using List.reverseRecOn with
  | nil => exact ⟨⟨0, rfl⟩, by simp [trimPadding]⟩
  | append_singleton front x ih =>
    by_cases hx : x = 0
    · subst hx
      have h : trimPadding (front ++ [0]) = trimPadding front := trimPadding_append_replicate front 1
      obtain ⟨⟨n, hn⟩, hl⟩ := ih
      refine ⟨⟨n + 1, ?_⟩, by rwa [h]⟩
      rw [h, List.replicate_succ', ← List.append_assoc, ← hn]
    · have h : trimPadding (front ++ [x]) = front ++ [x] := trimPadding_eq_self (by simpa using hx)
      exact ⟨⟨0, by simp [h]⟩, by simpa [h] using hx⟩

/-- The parameter frame's length (30_encoding.md R46). -/
theorem parameterFrame_length (modelId : Bytes) (dev : BitVec 7) (opcode : Byte) (payload : Bytes) :
    (parameterFrame modelId dev opcode payload).length = 6 + modelId.length + payload.length := by
  simp [parameterFrame]
  omega

end Sys2Proof.Machine
end

