-- ==== Sys2Proof/Laws/State.lean ====
section
/-! SUPPORT. One lemma per field per update of the state, and what ending a command does. -/

namespace Sys2Proof.Machine

@[simp] theorem State.setResp_asm (s : State) (r : Response) : (s.setResp r).asm = s.asm := rfl
@[simp] theorem State.setResp_buf (s : State) (r : Response) : (s.setResp r).buf = s.buf := rfl
@[simp] theorem State.setResp_cfg (s : State) (r : Response) : (s.setResp r).cfg = s.cfg := rfl
@[simp] theorem State.setResp_resp (s : State) (r : Response) : (s.setResp r).resp = r := rfl
@[simp] theorem State.setResp_inputs (s : State) (r : Response) : (s.setResp r).inputs = s.inputs := rfl

@[simp] theorem State.setAssembler_asm (s : State) (m : Asm) (b : Bytes) : (s.setAssembler m b).asm = m := rfl
@[simp] theorem State.setAssembler_buf (s : State) (m : Asm) (b : Bytes) : (s.setAssembler m b).buf = b := rfl
@[simp] theorem State.setAssembler_cfg (s : State) (m : Asm) (b : Bytes) : (s.setAssembler m b).cfg = s.cfg := rfl
@[simp] theorem State.setAssembler_resp (s : State) (m : Asm) (b : Bytes) :
    (s.setAssembler m b).resp = s.resp := rfl
@[simp] theorem State.setAssembler_inputs (s : State) (m : Asm) (b : Bytes) :
    (s.setAssembler m b).inputs = s.inputs := rfl

@[simp] theorem State.setInputs_asm (s : State) (l : List HostInput) : (s.setInputs l).asm = s.asm := rfl
@[simp] theorem State.setInputs_buf (s : State) (l : List HostInput) : (s.setInputs l).buf = s.buf := rfl
@[simp] theorem State.setInputs_cfg (s : State) (l : List HostInput) : (s.setInputs l).cfg = s.cfg := rfl
@[simp] theorem State.setInputs_resp (s : State) (l : List HostInput) : (s.setInputs l).resp = s.resp := rfl
@[simp] theorem State.setInputs_inputs (s : State) (l : List HostInput) : (s.setInputs l).inputs = l := rfl

@[simp] theorem State.construct_asm (c : Config) : (State.construct c).asm = .idle := rfl
@[simp] theorem State.construct_buf (c : Config) : (State.construct c).buf = [] := rfl
@[simp] theorem State.construct_cfg (c : Config) : (State.construct c).cfg = c := rfl
@[simp] theorem State.construct_resp (c : Config) : (State.construct c).resp = Response.noValue := rfl
@[simp] theorem State.construct_inputs (c : Config) : (State.construct c).inputs = [] := rfl

@[simp] theorem Response.withStatus_status (r : Response) (st : Status) :
    (r.withStatus st).status = some st.code := rfl
@[simp] theorem Response.withStatus_rv (r : Response) (st : Status) : (r.withStatus st).rv = r.rv := rfl
@[simp] theorem Response.withStatus_rb (r : Response) (st : Status) : (r.withStatus st).rb = r.rb := rfl
@[simp] theorem Response.withStatus_frame (r : Response) (st : Status) : (r.withStatus st).frame = r.frame := rfl
@[simp] theorem Response.withStatus_wire (r : Response) (st : Status) : (r.withStatus st).wire = r.wire := rfl
@[simp] theorem Response.withStatus_fv (r : Response) (st : Status) : (r.withStatus st).fv = r.fv := rfl
@[simp] theorem Response.withStatus_idv (r : Response) (st : Status) : (r.withStatus st).idv = r.idv := rfl
@[simp] theorem Response.withStatus_idDev (r : Response) (st : Status) : (r.withStatus st).idDev = r.idDev := rfl
@[simp] theorem Response.withStatus_idMfr (r : Response) (st : Status) : (r.withStatus st).idMfr = r.idMfr := rfl
@[simp] theorem Response.withStatus_idFam (r : Response) (st : Status) : (r.withStatus st).idFam = r.idFam := rfl
@[simp] theorem Response.withStatus_idMdl (r : Response) (st : Status) : (r.withStatus st).idMdl = r.idMdl := rfl
@[simp] theorem Response.withStatus_idVer (r : Response) (st : Status) : (r.withStatus st).idVer = r.idVer := rfl

/-- A command ends in a next state whose response is exactly what it was given, with the status. -/
theorem complete_eq (st : Status) (r : Response) (s : State) :
    complete st r s = .next (s.setResp (r.withStatus st)) := rfl

/-- What `finish` can do. -/
theorem finish_eq (r : Response) (s : State) : finish r s = .next (s.setResp (r.withStatus .ok)) := rfl

/-- What `raise` can do. -/
theorem raise_eq (st : Status) (r : Response) (s : State) : raise st r s = .next (s.setResp (r.withStatus st)) := rfl

/-- What `raiseIllegal` can do. -/
theorem raiseIllegal_eq (s : State) :
    raiseIllegal s = .next (s.setResp (Response.noValue.withStatus .illegalCommand)) := rfl

/-- What the reset input can do. -/
theorem resetInput_eq (s : State) :
    resetInput s = { asm := .idle, buf := [], cfg := s.cfg, resp := Response.noValue, inputs := s.inputs } := rfl

/-- A host read answers the same state, or faults by name. -/
theorem serveRead_cases (f : RespField) (s : State) :
    (serveRead f s = .next s ∧ s.resp.read f ≠ none)
      ∨ (serveRead f s = .fault (.unwrittenResponse f) ∧ s.resp.read f = none) := by
  unfold serveRead
  cases h : s.resp.read f <;> simp

end Sys2Proof.Machine
end

