-- ==== Sys2Proof/Laws/FrameAssembler.lean ====
section
/-! SUPPORT. Everything FEED can do, said once (43_frameassembler.md R76 to R85), and what DECODEID's function reads. -/

namespace Sys2Proof.Machine

/-- The cap test of the machine and the bound of the claims (43_frameassembler.md R85). -/
theorem overCap_eq_false {cfg : Config} {buf : Bytes} : overCap cfg buf = false ↔ WithinCap cfg buf := by
  unfold overCap WithinCap
  cases cfg.bufCap <;> simp

/-- Emit processing accepts exactly the frames of 43_frameassembler.md R83. -/
theorem acceptsCandidate_iff {cfg : Config} {c : Bytes} : acceptsCandidate cfg c = true ↔ AcceptedFrame cfg c := by
  unfold acceptsCandidate AcceptedFrame
  constructor
  · intro h
    obtain ⟨⟨hs, he⟩, hi⟩ : (c.head? = some 0xF0 ∧ c.getLast? = some 0xF7)
        ∧ (cfg.checkInterior = true → ∀ x ∈ interior c, x.toNat ≤ 0x7F) := by
      simpa [isSevenBit, sysexStart, sysexEnd, imp_iff_not_or] using h
    obtain ⟨tail, rfl⟩ := List.head?_eq_some_iff.mp hs
    rcases List.eq_nil_or_concat tail with rfl | ⟨inner, y, rfl⟩
    · simp at he
    · obtain rfl : y = 0xF7 := by simpa [List.getLast?_cons] using he
      exact ⟨inner, by simp, by simpa using hi⟩
  · rintro ⟨inner, rfl, hi⟩
    simp [List.getLast?_cons, sysexStart, sysexEnd, isSevenBit]
    simpa [imp_iff_not_or] using hi

/-- An accepted frame ends with its terminator, so nothing of it is padding. -/
theorem AcceptedFrame.getLast? {cfg : Config} {c : Bytes} (h : AcceptedFrame cfg c) : c.getLast? ≠ some 0x00 := by
  obtain ⟨inner, rfl, -⟩ := h
  simp [List.getLast?_cons]

/-- What FEED does with a fragment it takes, in four cases: refused past the cap, kept, emitted, dropped. -/
theorem takeFragment_cases (fragment buf : Bytes) (s : State) :
    (takeFragment fragment buf s = .refused .bufferCap ∧ ¬ WithinCap s.cfg buf)
      ∨ (takeFragment fragment buf s =
            .next { s with asm := .collecting, buf := buf,
                           resp := { Response.noValue with status := some 0x0, fv := some false } }
          ∧ WithinCap s.cfg buf ∧ (0xF7 : Byte) ∉ fragment)
      ∨ (takeFragment fragment buf s =
            .next { s with asm := .idle, buf := [],
                           resp := { Response.noValue with
                             status := some 0x0, frame := some (trimPadding buf), fv := some true } }
          ∧ WithinCap s.cfg buf ∧ (0xF7 : Byte) ∈ fragment ∧ AcceptedFrame s.cfg (trimPadding buf))
      ∨ (takeFragment fragment buf s =
            .next { s with asm := .idle, buf := [],
                           resp := { Response.noValue with status := some 0x1, fv := some false } }
          ∧ WithinCap s.cfg buf ∧ (0xF7 : Byte) ∈ fragment ∧ ¬ AcceptedFrame s.cfg (trimPadding buf)) := by
  unfold takeFragment
  by_cases hcap : WithinCap s.cfg buf
  · rw [if_neg (by simp [overCap_eq_false.mpr hcap])]
    by_cases hend : (0xF7 : Byte) ∈ fragment
    · rw [if_pos (by simpa [sysexEnd] using hend)]
      by_cases hok : AcceptedFrame s.cfg (trimPadding buf)
      · exact .inr (.inr (.inl ⟨if_pos (acceptsCandidate_iff.mpr hok), hcap, hend, hok⟩))
      · exact .inr (.inr (.inr ⟨if_neg fun h => hok (acceptsCandidate_iff.mp h), hcap, hend, hok⟩))
    · rw [if_neg (by simpa [sysexEnd] using hend)]
      exact .inr (.inl ⟨rfl, hcap, hend⟩)
  · rw [if_pos (by simpa [← overCap_eq_false] using hcap)]
    exact .inl ⟨rfl, hcap⟩

/-- FEED drops a fragment (43_frameassembler.md R77, R78) or takes it into a buffer (R79, R80). -/
theorem execFeed_cases (bytes : Bytes) (s : State) :
    (execFeed bytes s = .next { s with resp := { Response.noValue with status := some 0x0, fv := some false } }
        ∧ (bytes = [] ∨ s.asm = .idle ∧ bytes.head? ≠ some 0xF0))
      ∨ ∃ buf, TakenInto s bytes buf ∧ execFeed bytes s = takeFragment bytes buf s := by
  unfold execFeed
  cases bytes with
  | nil => exact .inl ⟨rfl, .inl rfl⟩
  | cons first rest =>
    by_cases hfirst : first = 0xF0
    · subst hfirst
      cases hasm : s.asm with
      | idle => exact .inr ⟨_, .inl ⟨hasm, rfl, rfl⟩, rfl⟩
      | collecting =>
        cases hrestart : s.cfg.restartOnF0 with
        | true => exact .inr ⟨_, .inr (.inl ⟨hasm, hrestart, rfl, rfl⟩), rfl⟩
        | false =>
          exact .inr ⟨s.buf ++ 0xF0 :: rest,
            .inr (.inr ⟨hasm, by simp, .inl hrestart, rfl⟩), rfl⟩
    · have hbeq : (first == sysexStart) = false := by simpa [sysexStart] using hfirst
      cases hasm : s.asm with
      | idle =>
        refine .inl ⟨?_, .inr ⟨rfl, by simpa using hfirst⟩⟩
        simp only [hbeq, Bool.false_eq_true, if_false, ← hasm]
        rfl
      | collecting =>
        refine .inr ⟨s.buf ++ first :: rest, .inr (.inr ⟨hasm, by simp, .inr (by simpa using hfirst), rfl⟩), ?_⟩
        simp [hbeq]

/-- The buffer a fragment is taken into is the only one. -/
theorem TakenInto.unique {s : State} {bytes b c : Bytes} (hb : TakenInto s bytes b) (hc : TakenInto s bytes c) :
    b = c := by
  rcases hb with ⟨h1, h2, h3⟩ | ⟨h1, h2, h3, h4⟩ | ⟨h1, h2, h3, h4⟩ <;>
    rcases hc with ⟨k1, k2, k3⟩ | ⟨k1, k2, k3, k4⟩ | ⟨k1, k2, k3, k4⟩ <;> simp_all

/-- FEED of a fragment that is taken. -/
theorem execFeed_taken {s : State} {bytes buf : Bytes} (h : TakenInto s bytes buf) :
    execFeed bytes s = takeFragment bytes buf s := by
  obtain ⟨-, hdrop⟩ | ⟨b, hb, he⟩ := execFeed_cases bytes s
  · rcases hdrop with rfl | ⟨ha, hh⟩
    · rcases h with ⟨-, h, -⟩ | ⟨-, -, h, -⟩ | ⟨-, h, -⟩ <;> simp at h
    · rcases h with ⟨-, h, -⟩ | ⟨h, -⟩ | ⟨h, -⟩
      · exact absurd h hh
      · simp [ha] at h
      · simp [ha] at h
  · rwa [h.unique hb]

/-- `decodeIdentityReply` finds a record exactly in a 15-byte reply (43_frameassembler.md R87). -/
theorem decodeIdentityReply_eq_some {f : Bytes} {r : Identity} (h : decodeIdentityReply f = some r) :
    f = [0xF0, 0x7E, r.deviceId, 0x06, 0x02, r.manufacturerId, r.family.1, r.family.2, r.model.1, r.model.2,
      r.version.1, r.version.2.1, r.version.2.2.1, r.version.2.2.2, 0xF7] := by
  unfold decodeIdentityReply at h
  split at h
  · split at h
    · rename_i hsel
      obtain ⟨rfl, rfl, rfl, rfl, rfl⟩ := hsel
      obtain rfl := Option.some.inj h
      rfl
    · simp at h
  · simp at h

end Sys2Proof.Machine
end

