-- ==== Sys2Proof/Laws/PerInstr.lean ====
section
/-! SUPPORT. Statements for all commands, made per command. -/

namespace Sys2Proof.Laws.EncodesToItsRow

/-- The encoder's command word has the opcode and the zero reserved field of the command's row: `match` under the mask
0xFF0000FF of 30_encoding.md R42. -/
def Statement (i : Instr) : Prop :=
  (encode i).cw &&& 0xFF0000FF#32 = i.op.code.setWidth 32

/-- Masking a command word with 0xFF0000FF leaves its opcode, where its reserved field is 0. -/
theorem mask_packWord (dv : Bool) (dev : BitVec 7) (w g : BitVec 4) (op : BitVec 8) :
    packWord 0 dv dev w g op &&& 0xFF0000FF#32 = op.setWidth 32 := by
  refine BitVec.eq_of_getLsbD_eq fun k hk => ?_
  rw [BitVec.getLsbD_and, packWord_getLsbD, BitVec.getLsbD_setWidth]
  interval_cases k <;> simp [BitVec.getLsbD_of_ge]

theorem pack7 (a : Word) : Statement (.pack7 a) := mask_packWord _ _ _ _ _
theorem nibSplit (a : Word) : Statement (.nibSplit a) := mask_packWord _ _ _ _ _
theorem packRuns (g w : BitVec 4) (a : Word) : Statement (.packRuns g w a) := mask_packWord _ _ _ _ _
theorem unpack128 (bytes : Bytes) : Statement (.unpack128 bytes) := mask_packWord _ _ _ _ _
theorem checksum (bytes : Bytes) : Statement (.checksum bytes) := mask_packWord _ _ _ _ _
theorem encColor (bytes : Bytes) : Statement (.encColor bytes) := mask_packWord _ _ _ _ _
theorem addrUc (b : Word) : Statement (.addrUc b) := mask_packWord _ _ _ _ _
theorem buildRq1 (dv : Bool) (dev : BitVec 7) (a b : Word) : Statement (.buildRq1 dv dev a b) :=
  mask_packWord _ _ _ _ _
theorem buildDt1 (dv : Bool) (dev : BitVec 7) (a : Word) (bytes : Bytes) : Statement (.buildDt1 dv dev a bytes) :=
  mask_packWord _ _ _ _ _
theorem buildIdReq : Statement .buildIdReq := mask_packWord _ _ _ _ _
theorem feed (bytes : Bytes) : Statement (.feed bytes) := mask_packWord _ _ _ _ _
theorem decodeId (bytes : Bytes) : Statement (.decodeId bytes) := mask_packWord _ _ _ _ _

end Sys2Proof.Laws.EncodesToItsRow
end

