-- ==== Sys2Proof/Laws/Step.lean ====
section
/-! SUPPORT. Everything a command and a step can do, said once. -/

namespace Sys2Proof.Machine

/-- PACKRUNS' range test (40_bytecodec.md R59). -/
theorem packRunsInRange_iff {g w : BitVec 4} :
    packRunsInRange g w = true ↔ 1 ≤ g.toNat ∧ g.toNat ≤ 8 ∧ 1 ≤ w.toNat ∧ w.toNat ≤ 8 := by
  simp [packRunsInRange]
  omega

/-- ENCCOLOR's three channels (40_bytecodec.md R65). -/
theorem colorChannels_eq_none {bytes : Bytes} : colorChannels bytes = none ↔ bytes.length ≠ 3 := by
  match bytes with
  | [] => simp [colorChannels]
  | [_] => simp [colorChannels]
  | [_, _] => simp [colorChannels]
  | [_, _, _] => simp [colorChannels]
  | _ :: _ :: _ :: _ :: _ => simp [colorChannels]

/-- ADDRUC's index test (41_addressspace.md R68). -/
theorem userColorIndex_eq_none {b : Word} : userColorIndex b = none ↔ 4 < b.toNat := by
  unfold userColorIndex maxUserColor
  split <;> simp <;> omega

/-- The response of a command other than FEED: a function of the command and the configuration alone
(20_memory.md R34). FEED has none here. -/
def pureResponse (cfg : Config) : Instr → Response
  | .pack7 a => { Response.noValue with status := some 0x0, rb := some (packAddress a) }
  | .nibSplit a => { Response.noValue with status := some 0x0, rb := some (nibbleSplit a.toNat) }
  | .packRuns g w a =>
    if packRunsInRange g w then
      { Response.noValue with status := some 0x0, rb := some (packBitRuns a.toNat g.toNat w.toNat) }
    else { Response.noValue with status := some 0xF }
  | .unpack128 bytes =>
    if unpackInRange bytes then
      { Response.noValue with status := some 0x0, rv := some (BitVec.ofNat 32 (unpackBase128 bytes)) }
    else { Response.noValue with status := some 0xF }
  | .checksum bytes => { Response.noValue with status := some 0x0, rv := some (BitVec.ofNat 32 (checksumOf bytes)) }
  | .encColor bytes =>
    match colorChannels bytes with
    | some (red, green, blue) =>
      { Response.noValue with
        status := some 0x0
        rb := some (nibbleSplit red.toNat ++ nibbleSplit green.toNat ++ nibbleSplit blue.toNat) }
    | none => { Response.noValue with status := some 0xF }
  | .addrUc b =>
    match userColorIndex b with
    | some i => { Response.noValue with status := some 0x0, rv := some (BitVec.ofNat 32 (userColorAddress cfg i)) }
    | none => { Response.noValue with status := some 0x2 }
  | .buildRq1 dv dev a b =>
    let f := parameterFrame cfg.modelId dev opcodeRq1 (packAddress a ++ packAddress b)
    if dv then { Response.noValue with status := some 0x0, frame := some f, wire := some (pad4 f) }
    else { Response.noValue with status := some 0x3 }
  | .buildDt1 dv dev a bytes =>
    let f := parameterFrame cfg.modelId dev opcodeDt1 (packAddress a ++ bytes)
    if dv then { Response.noValue with status := some 0x0, frame := some f, wire := some (pad4 f) }
    else { Response.noValue with status := some 0x3 }
  | .buildIdReq =>
    { Response.noValue with status := some 0x0, frame := some identityRequest, wire := some (pad4 identityRequest) }
  | .feed _ => Response.noValue
  | .decodeId bytes =>
    match decodeIdentityReply bytes with
    | none => { Response.noValue with status := some 0x0, idv := some false }
    | some r =>
      { Response.noValue with
        status := some 0x0, idv := some true, idDev := some r.deviceId, idMfr := some r.manufacturerId,
        idFam := some r.family, idMdl := some r.model, idVer := some r.version }

/-- What every command other than FEED does. -/
theorem exec_pure {i : Instr} (h : ∀ bytes, i ≠ .feed bytes) (s : State) :
    exec i s = .next { s with resp := pureResponse s.cfg i } := by
  cases i with
  | feed bytes => exact absurd rfl (h bytes)
  | pack7 | nibSplit | checksum | buildIdReq => rfl
  | packRuns g w a =>
    cases hr : packRunsInRange g w <;> simp [exec, execPackRuns, pureResponse, hr] <;> rfl
  | unpack128 bytes =>
    cases hr : unpackInRange bytes <;> simp [exec, execUnpack128, pureResponse, hr] <;> rfl
  | encColor bytes =>
    cases hr : colorChannels bytes <;> simp [exec, execEncColor, pureResponse, hr] <;> rfl
  | addrUc b =>
    cases hr : userColorIndex b <;> simp [exec, execAddrUc, pureResponse, hr] <;> rfl
  | buildRq1 dv dev a b => cases dv <;> rfl
  | buildDt1 dv dev a bytes => cases dv <;> rfl
  | decodeId bytes =>
    cases hr : decodeIdentityReply bytes <;> simp [exec, execDecodeId, pureResponse, hr] <;> rfl

/-- A command of the list of host inputs, in the order of its checks (60_exceptions.md R98). -/
theorem runCommand_cases (c : Command) (s : State) :
    (runCommand c s = .refused .operandTooLong ∧ s.cfg.sMax < c.bytes.length)
      ∨ (runCommand c s = .next { s with resp := { Response.noValue with status := some 0xF } }
          ∧ c.bytes.length ≤ s.cfg.sMax ∧ ∃ why, decode c = .illegal why)
      ∨ ∃ i, runCommand c s = exec i s ∧ c.bytes.length ≤ s.cfg.sMax ∧ decode c = .instr i := by
  unfold runCommand operandTooLong
  by_cases hlen : s.cfg.sMax < c.bytes.length
  · exact .inl ⟨by simp [hlen], hlen⟩
  · rw [if_neg (by simpa using hlen)]
    cases hd : decode c with
    | illegal why => exact .inr (.inl ⟨rfl, Nat.le_of_not_lt hlen, why, rfl⟩)
    | instr i => exact .inr (.inr ⟨i, rfl, Nat.le_of_not_lt hlen, rfl⟩)

/-- Everything a step that answers a next state can have done: read, reset, or run one command that is not refused. -/
theorem step_cases {s t : State} (h : step s = .next t) :
    (∃ f rest, s.inputs = .read f :: rest ∧ s.resp.read f ≠ none ∧ t = { s with inputs := rest })
      ∨ (∃ rest, s.inputs = .reset :: rest
          ∧ t = { asm := .idle, buf := [], cfg := s.cfg, resp := Response.noValue, inputs := rest })
      ∨ ∃ c rest, s.inputs = .command c :: rest ∧ c.bytes.length ≤ s.cfg.sMax
          ∧ ((∃ why, decode c = .illegal why)
                ∧ t = { s with inputs := rest, resp := { Response.noValue with status := some 0xF } }
              ∨ ∃ i, decode c = .instr i ∧ exec i { s with inputs := rest } = .next t) := by
  unfold step at h
  cases hin : s.inputs with
  | nil => simp [hin] at h
  | cons input rest =>
    simp only [hin] at h
    cases input with
    | command c =>
      refine .inr (.inr ⟨c, rest, rfl, ?_⟩)
      obtain ⟨hr, -⟩ | ⟨hr, hl, hd⟩ | ⟨i, hr, hl, hd⟩ := runCommand_cases c (s.setInputs rest)
      · simp [serveInput, hr] at h
      · refine ⟨hl, .inl ⟨hd, ?_⟩⟩
        rw [serveInput, hr] at h
        exact (Host.Outcome.next.inj h).symm
      · exact ⟨hl, .inr ⟨i, hd, by rw [← h, serveInput, hr]; rfl⟩⟩
    | reset => exact .inr (.inl ⟨rest, rfl, by simpa [serveInput, resetInput_eq] using h.symm⟩)
    | read f =>
      obtain ⟨hr, hf⟩ | ⟨hr, -⟩ := serveRead_cases f (s.setInputs rest)
      · have ht : s.setInputs rest = t := by simpa [serveInput, hr] using h
        exact .inl ⟨f, rest, rfl, hf, ht.symm⟩
      · simp [serveInput, hr] at h

end Sys2Proof.Machine
end

