-- ==== Sys2Proof/Tests/Slice0.lean ====
section
/-! SUPPORT. The model's own tests: the smoke tests of WellFormed, every command's word decoded, the spec's vectors, and
for every statement with hypotheses a concrete case that meets them all. Every expected value is the spec's own
(95_test_vectors.md, the number of the row or program beside it), or is worked out by hand from the rule named. -/

namespace Sys2Proof.Tests

open Sys2Proof Sys2Proof.Machine

/-- A well-formed configuration with every parameter a number: the defaults of 00_scope.md R7, `S_MAX = 32`, and the
slot ids 10, 0, 1, 2 and the largest one R20 allows. -/
def testConfig : Config where
  modelId := [0x00, 0x00, 0x00, 0x00, 0x16]
  setupBase := 0x01000000
  colorTableBase := 0x0800
  colorTableStep := 0x0100
  colorRgbOffset := 0x10
  userPaletteSlotIndex := #v[10, 0, 1, 2, 0xEFFF7]
  restartOnF0 := false
  checkInterior := false
  bufCap := none
  sMax := 32

/-- The block over that configuration, right after construction. -/
def testState : State := State.construct testConfig

/-- The same block collecting `buf`, with a cap. -/
def collectingState (buf : Bytes) (cap : Option Nat) : State :=
  { testState with asm := .collecting, buf := buf, cfg := { testConfig with bufCap := cap } }

/-- The response of one command, if it is not refused. -/
def responseOf (i : Instr) (s : State) : Option Response :=
  match exec i s with
  | .next t => some t.resp
  | .fault _ => none
  | .refused _ => none

/-- `ASM`, `BUF`, `STATUS` and `FRAME` after one command. -/
def assemblerAfter (i : Instr) (s : State) : Option (Asm × Bytes × Option (BitVec 4) × Option Bytes) :=
  match exec i s with
  | .next t => some (t.asm, t.buf, t.resp.status, t.resp.frame)
  | .fault _ => none
  | .refused _ => none

/-! ### WellFormed refuses an ill-formed command for each of its checks -/

theorem test_wellFormed_refuses_group_width_zero : (Instr.packRuns 0 4 1).wellFormed = false := by decide
theorem test_wellFormed_refuses_group_width_nine : (Instr.packRuns 9 4 1).wellFormed = false := by decide
theorem test_wellFormed_refuses_no_groups : (Instr.packRuns 7 0 1).wellFormed = false := by decide
theorem test_wellFormed_refuses_nine_groups : (Instr.packRuns 7 9 1).wellFormed = false := by decide
theorem test_wellFormed_refuses_five_bytes : (Instr.unpack128 [0, 0, 0, 0, 1]).wellFormed = false := by decide
theorem test_wellFormed_refuses_two_channels : (Instr.encColor [0xFF, 0x00]).wellFormed = false := by decide
theorem test_wellFormedFor_refuses_overlong_operand :
    (Instr.feed (List.replicate 33 0)).wellFormedFor testConfig = false := by decide
theorem test_wellFormed_takes_the_bounds :
    (Instr.packRuns 1 8 0).wellFormed = true ∧ (Instr.packRuns 8 1 0).wellFormed = true
      ∧ (Instr.unpack128 [1, 2, 3, 4]).wellFormed = true ∧ (Instr.encColor [1, 2, 3]).wellFormed = true
      ∧ (Instr.feed (List.replicate 32 0)).wellFormedFor testConfig = true := by decide

/-- Each condition of 10_state.md R20 refuses a configuration. -/
theorem test_config_wellFormed :
    testConfig.wellFormed = true
      ∧ { testConfig with modelId := [0x00, 0x00, 0x00, 0x79] }.wellFormed = true
      ∧ { testConfig with modelId := [0x00, 0x00, 0x00, 0x80] }.wellFormed = false
      ∧ { testConfig with modelId := [0x00, 0x00, 0x16] }.wellFormed = false
      ∧ { testConfig with sMax := 15 }.wellFormed = false
      ∧ { testConfig with userPaletteSlotIndex := #v[10, 0, 1, 2, 0xEFFF8] }.wellFormed = false := by decide

/-! ### Decoding: each word field by field, as 30_encoding.md R40 orders them (RSVD, DV, DEV, W, G, OP) -/

theorem test_decode_pack7 :
    decode ⟨0x00#8 ++ 0b0#1 ++ 0b0000000#7 ++ 0x0#4 ++ 0x0#4 ++ 0x01#8, 5, 6, [7]⟩ = .instr (.pack7 5) := by decide
theorem test_decode_nibSplit :
    decode ⟨0x00#8 ++ 0b0#1 ++ 0b0000000#7 ++ 0x0#4 ++ 0x0#4 ++ 0x02#8, 5, 6, [7]⟩ = .instr (.nibSplit 5) := by decide
theorem test_decode_packRuns :
    decode ⟨0x00#8 ++ 0b0#1 ++ 0b0000000#7 ++ 0x2#4 ++ 0x8#4 ++ 0x03#8, 5, 6, [7]⟩ = .instr (.packRuns 8 2 5) := by
  decide
theorem test_decode_unpack128 :
    decode ⟨0x00#8 ++ 0b0#1 ++ 0b0000000#7 ++ 0x0#4 ++ 0x0#4 ++ 0x04#8, 5, 6, [7]⟩ = .instr (.unpack128 [7]) := by
  decide
theorem test_decode_checksum :
    decode ⟨0x00#8 ++ 0b0#1 ++ 0b0000000#7 ++ 0x0#4 ++ 0x0#4 ++ 0x05#8, 5, 6, [7]⟩ = .instr (.checksum [7]) := by
  decide
theorem test_decode_encColor :
    decode ⟨0x00#8 ++ 0b0#1 ++ 0b0000000#7 ++ 0x0#4 ++ 0x0#4 ++ 0x06#8, 5, 6, [7]⟩ = .instr (.encColor [7]) := by
  decide
theorem test_decode_addrUc :
    decode ⟨0x00#8 ++ 0b0#1 ++ 0b0000000#7 ++ 0x0#4 ++ 0x0#4 ++ 0x08#8, 5, 6, [7]⟩ = .instr (.addrUc 6) := by decide
theorem test_decode_buildRq1 :
    decode ⟨0x00#8 ++ 0b1#1 ++ 0b0010000#7 ++ 0x0#4 ++ 0x0#4 ++ 0x11#8, 5, 6, [7]⟩ =
      .instr (.buildRq1 true 0x10 5 6) := by decide
theorem test_decode_buildDt1 :
    decode ⟨0x00#8 ++ 0b0#1 ++ 0b1111111#7 ++ 0x0#4 ++ 0x0#4 ++ 0x12#8, 5, 6, [7]⟩ =
      .instr (.buildDt1 false 0x7F 5 [7]) := by decide
theorem test_decode_buildIdReq :
    decode ⟨0x00#8 ++ 0b1#1 ++ 0b0000000#7 ++ 0x0#4 ++ 0x0#4 ++ 0x13#8, 5, 6, [7]⟩ = .instr .buildIdReq := by decide
theorem test_decode_feed :
    decode ⟨0x00#8 ++ 0b0#1 ++ 0b0000000#7 ++ 0x0#4 ++ 0x0#4 ++ 0x20#8, 5, 6, [7]⟩ = .instr (.feed [7]) := by decide
theorem test_decode_decodeId :
    decode ⟨0x00#8 ++ 0b0#1 ++ 0b0000000#7 ++ 0x0#4 ++ 0x0#4 ++ 0x21#8, 5, 6, [7]⟩ = .instr (.decodeId [7]) := by
  decide

/-- The hand-read words as the host numbers them, and two reserved ones. -/
theorem test_decodeTableWord :
    decodeTableWord 32 0x00000003 = some (.packRuns 0 0 0) ∧ decodeTableWord 32 0x00900011 = some (.buildRq1 true 0x10 0 0)
      ∧ decodeTableWord 32 0x00000007 = none ∧ decodeTableWord 32 0x80000020 = none := by decide

/-- The encoder on the command words of 95_test_vectors.md 2.3, 2.8 and 2.9. -/
theorem test_encode_words :
    (encode (.packRuns 8 2 0xABCD)).cw = 0x00002803 ∧ (encode (.buildRq1 true 0x10 0 4)).cw = 0x00900011
      ∧ (encode (.buildDt1 true 0x12 0x01001210 [])).cw = 0x00920012 := by decide

/-- The word put in front of the next step runs as the first command after reset: user colour 0. -/
theorem test_withFetchWord_runs_first :
    (match step (State.reset.withFetchWord 32 0x00000008) with
      | .next t => t.resp.rv
      | .fault _ => none
      | .refused _ => none) = some 0x01001210 := by decide

/-! ### The commands on the spec's vectors -/

/-- 95_test_vectors.md 2.1, the row that loses bits 31:28. -/
theorem test_pack7_drops_high_bits :
    responseOf (.pack7 0x12345678) testState =
      some { Response.noValue with status := some 0, rb := some [0x11, 0x51, 0x2C, 0x78] } := by decide
/-- 95_test_vectors.md 2.2. -/
theorem test_nibSplit_beyond_a_byte :
    responseOf (.nibSplit 0x1234) testState =
      some { Response.noValue with status := some 0, rb := some [0x01, 0x02, 0x03, 0x04] } := by decide
/-- 95_test_vectors.md 2.3: groups above bit 31, and a byte that is not 7-bit safe. -/
theorem test_packRuns_above_bit_31 :
    responseOf (.packRuns 8 8 0xFFFFFFFF) testState =
      some { Response.noValue with status := some 0, rb := some [0, 0, 0, 0, 0xFF, 0xFF, 0xFF, 0xFF] } := by decide
/-- 95_test_vectors.md 2.3: `G = 9`. -/
theorem test_packRuns_width_nine_is_illegal :
    responseOf (.packRuns 9 4 1) testState = some { Response.noValue with status := some 0xF } := by decide
/-- 95_test_vectors.md 2.4, the largest result. -/
theorem test_unpack128_unmasked :
    responseOf (.unpack128 [0xFF, 0xFF, 0xFF, 0xFF]) testState =
      some { Response.noValue with status := some 0, rv := some 0x2020407F } := by decide
/-- 95_test_vectors.md 2.4, five bytes. -/
theorem test_unpack128_five_bytes_is_illegal :
    responseOf (.unpack128 [0, 0, 0, 0, 1]) testState = some { Response.noValue with status := some 0xF } := by decide
/-- 95_test_vectors.md 2.5. -/
theorem test_checksum_wraps_to_zero :
    responseOf (.checksum [0x40, 0x40]) testState =
      some { Response.noValue with status := some 0, rv := some 0x00 } := by decide
/-- 95_test_vectors.md 2.5. -/
theorem test_checksum_of_the_color_payload :
    responseOf (.checksum [0x08, 0, 0x24, 0x10, 0, 0, 0x0F, 0x0F, 0, 0, 0, 0, 0, 0, 0x08, 0]) testState =
      some { Response.noValue with status := some 0, rv := some 0x1E } := by decide
/-- 95_test_vectors.md 2.6. -/
theorem test_encColor_order :
    responseOf (.encColor [0x12, 0x34, 0x56]) testState =
      some { Response.noValue with status := some 0, rb := some [0, 0, 1, 2, 0, 0, 3, 4, 0, 0, 5, 6] } := by decide
/-- 95_test_vectors.md 2.6. -/
theorem test_encColor_four_bytes_is_illegal :
    responseOf (.encColor [0xFF, 0, 0x80, 0]) testState = some { Response.noValue with status := some 0xF } := by decide
/-- 95_test_vectors.md 2.7, with the slot 0xEFFF7 of the test configuration: 0x01000810 + 0xEFFF7 * 0x100. -/
theorem test_addrUc_last_index :
    responseOf (.addrUc 4) testState =
      some { Response.noValue with status := some 0, rv := some 0x0FFFFF10 } := by decide
/-- 95_test_vectors.md 2.7. -/
theorem test_addrUc_index_five :
    responseOf (.addrUc 5) testState = some { Response.noValue with status := some 2 } := by decide
/-- 95_test_vectors.md 2.8, bits 31:28 dropped from both operands. -/
theorem test_buildRq1_frame_and_wire :
    responseOf (.buildRq1 true 0x10 0x12345678 0x10000004) testState =
      some { Response.noValue with
        status := some 0
        frame := some [0xF0, 0x41, 0x10, 0, 0, 0, 0, 0x16, 0x11, 0x11, 0x51, 0x2C, 0x78, 0, 0, 0, 4, 0x76, 0xF7]
        wire := some [0xF0, 0x41, 0x10, 0, 0, 0, 0, 0x16, 0x11, 0x11, 0x51, 0x2C, 0x78, 0, 0, 0, 4, 0x76, 0xF7, 0] } := by
  decide
/-- 95_test_vectors.md 2.8: `DEV` alone does not count. -/
theorem test_buildRq1_without_device_id :
    responseOf (.buildRq1 false 0x10 0 4) testState = some { Response.noValue with status := some 3 } := by decide
/-- 95_test_vectors.md 2.9, L4: 16 bytes, no padding. -/
theorem test_buildDt1_four_byte_model_id :
    responseOf (.buildDt1 true 0x12 0x12345 [0x55, 0x7F])
        { testState with cfg := { testConfig with modelId := [0, 0, 0, 0x79] } } =
      some { Response.noValue with
        status := some 0
        frame := some [0xF0, 0x41, 0x12, 0, 0, 0, 0x79, 0x12, 0, 0x04, 0x46, 0x45, 0x55, 0x7F, 0x1D, 0xF7]
        wire := some [0xF0, 0x41, 0x12, 0, 0, 0, 0x79, 0x12, 0, 0x04, 0x46, 0x45, 0x55, 0x7F, 0x1D, 0xF7] } := by decide
/-- 95_test_vectors.md 2.9: data copied unchanged, the checksum over full bytes. -/
theorem test_buildDt1_copies_data :
    (responseOf (.buildDt1 true 0x10 0 [0x80, 0xFF]) testState).bind Response.frame =
      some [0xF0, 0x41, 0x10, 0, 0, 0, 0, 0x16, 0x12, 0, 0, 0, 0, 0x80, 0xFF, 0x01, 0xF7] := by decide
/-- 95_test_vectors.md 2.9. -/
theorem test_buildIdReq_wire :
    (responseOf .buildIdReq testState).bind Response.wire = some [0xF0, 0x7E, 0x7F, 0x06, 0x01, 0xF7, 0, 0] := by decide
/-- 95_test_vectors.md F8: the whole buffer, one frame. -/
theorem test_feed_takes_the_whole_buffer :
    assemblerAfter (.feed [0xF0, 0x01, 0xF7, 0xF0, 0x02, 0xF7]) testState =
      some (.idle, [], some 0, some [0xF0, 0x01, 0xF7, 0xF0, 0x02, 0xF7]) := by decide
/-- 95_test_vectors.md P4 step 5: the candidate is `F0 41 10 00 F7 05` after trimming. -/
theorem test_feed_drops_a_bad_candidate :
    assemblerAfter (.feed [0x00, 0xF7, 0x05, 0x00]) (collectingState [0xF0, 0x41, 0x10] none) =
      some (.idle, [], some 1, none) := by decide
/-- 95_test_vectors.md D2. -/
theorem test_decodeId_fields :
    responseOf (.decodeId [0xF0, 0x7E, 0x7F, 0x06, 0x02, 0x00, 0x20, 0x33, 0x7F, 0x7F, 1, 2, 3, 4, 0xF7]) testState =
      some { Response.noValue with
        status := some 0, idv := some true, idDev := some 0x7F, idMfr := some 0x00, idFam := some (0x20, 0x33),
        idMdl := some (0x7F, 0x7F), idVer := some (1, 2, 3, 4) } := by decide
/-- 95_test_vectors.md D6: a padded reply is none. -/
theorem test_decodeId_padded :
    responseOf (.decodeId [0xF0, 0x7E, 0x10, 0x06, 0x02, 0x41, 1, 2, 3, 4, 0, 0, 1, 2, 0xF7, 0]) testState =
      some { Response.noValue with status := some 0, idv := some false } := by decide

/-! ### The parameters of FEED, and the host's side -/

/-- 95_test_vectors.md F7: the second fragment with `RESTART_ON_F0 = true`. -/
theorem test_feed_restarts :
    assemblerAfter (.feed [0xF0, 0x02, 0xF7])
        { collectingState [0xF0, 0x01] none with cfg := { testConfig with restartOnF0 := true } } =
      some (.idle, [], some 0, some [0xF0, 0x02, 0xF7]) := by decide
/-- 95_test_vectors.md F15: `CHECK_INTERIOR = true`. -/
theorem test_feed_checks_interior :
    assemblerAfter (.feed [0xF0, 0x80, 0xF7]) { testState with cfg := { testConfig with checkInterior := true } } =
      some (.idle, [], some 1, none) := by decide
/-- 95_test_vectors.md F21: the second fragment would make `len(BUF) = 5` with `BUF_CAP = 4`. -/
theorem test_feed_past_the_cap :
    exec (.feed [0x02, 0x03, 0x04]) (collectingState [0xF0, 0x01] (some 4)) = .refused .bufferCap := rfl

/-- 30_encoding.md R52's examples, with the command words 95_test_vectors.md part 2 and P1 give them. -/
theorem test_assemble_examples :
    assemble "PACK7 A=0x01001210" = some ⟨0x00000001, 0x01001210, 0, []⟩
      ∧ assemble "PACKRUNS G=8, W=2, A=0xABCD" = some ⟨0x00002803, 0xABCD, 0, []⟩
      ∧ assemble "BUILDRQ1 DEV=0x10, A=0, B=4" = some ⟨0x00900011, 0, 4, []⟩
      ∧ assemble "BUILDDT1 NODEV, A=0, S=[01]" = some ⟨0x00000012, 0, 0, [0x01]⟩
      ∧ assemble "FEED S=[F0 41 F7]" = some ⟨0x00000020, 0, 0, [0xF0, 0x41, 0xF7]⟩
      ∧ assemble "BUILDIDREQ" = some ⟨0x00000013, 0, 0, []⟩ := by decide
/-- An operand a command does not take is not written (30_encoding.md R52). -/
theorem test_assemble_refuses :
    assemble "PACK7 B=1" = none ∧ assemble "PACK7 A=0x" = none ∧ assemble "PACK7 A=1F" = none
      ∧ assemble "FEED S=[F0 7]" = none ∧ assemble "PACKRUNS G=16" = none ∧ assemble "FOO A=1" = none := by decide

/-- 95_test_vectors.md P1: REQKIT's frame. -/
theorem test_reqKit :
    (match issue (reqKit true 0x10) testState with
      | .next t => t.resp.frame
      | .fault _ => none
      | .refused _ => none) = some [0xF0, 0x41, 0x10, 0, 0, 0, 0, 0x16, 0x11, 0, 0, 0, 0, 0, 0, 0, 4, 0x7C, 0xF7] := by
  decide
/-- 95_test_vectors.md 2.9: IDENTIFY is BUILDIDREQ. -/
theorem test_identify : identify.cw = 0x00000013 := by decide
/-- 43_frameassembler.md R89: an id above 0x7F is no device id. -/
theorem test_deviceIdOf : deviceIdOf 0x10 = some 0x10 ∧ deviceIdOf 0x7F = some 0x7F ∧ deviceIdOf 0x80 = none := by decide

/-! ### Witnesses: for every statement with hypotheses, a case that meets them all -/

theorem witness_EncodeInvertsDecodeOnUsedFields :
    decode ⟨0x00FF2803, 0xABCD, 9, [9]⟩ = .instr (.packRuns 8 2 0xABCD) := by decide

theorem witness_UnusedFieldsAreIgnored :
    decode ⟨0x00FF2803, 0xABCD, 9, [9]⟩ = .instr (.packRuns 8 2 0xABCD)
      ∧ (0x00002803 : Word) &&& usedBits .packRuns = 0x00FF2803 &&& usedBits .packRuns
      ∧ usesA .packRuns = true ∧ usesB .packRuns = false ∧ usesBytes .packRuns = false := by decide

/-- An operand of exactly `S_MAX` bytes. -/
theorem witness_StepRunsTheDecodedCommand :
    let c : Command := ⟨0x20, 0, 0, List.replicate 32 0⟩
    let s : State := { testState with inputs := [.command c] }
    s.inputs = .command c :: [] ∧ c.bytes.length ≤ s.cfg.sMax ∧ decode c = .instr (.feed (List.replicate 32 0)) := by
  decide

theorem witness_ReservedCommandWordsAreIllegal_reserved_bits :
    let c : Command := ⟨0x01000011, 0, 0, List.replicate 32 0⟩
    c.bytes.length ≤ testState.cfg.sMax ∧ c.cw.extractLsb' 24 8 ≠ 0 := by decide

/-- The ends of every range of 30_encoding.md R43, and the opcodes beside them. -/
theorem witness_ReservedCommandWordsAreIllegal_reserved_opcodes :
    (ReservedOpcode 0x00 ∧ ReservedOpcode 0x07 ∧ ReservedOpcode 0x09 ∧ ReservedOpcode 0x10 ∧ ReservedOpcode 0x14
        ∧ ReservedOpcode 0x1F ∧ ReservedOpcode 0x22 ∧ ReservedOpcode 0xFF)
      ∧ ¬ ReservedOpcode 0x08 ∧ ¬ ReservedOpcode 0x11 ∧ ¬ ReservedOpcode 0x13 ∧ ¬ ReservedOpcode 0x21 := by
  simp [ReservedOpcode]

/-- One byte more than `S_MAX`, under an illegal word (95_test_vectors.md 2.12, the last row). -/
theorem witness_OverlongOperandIsRefused :
    let c : Command := ⟨0x01000007, 0, 0, List.replicate 33 0⟩
    let s : State := { testState with inputs := [.command c] }
    s.inputs = .command c :: [] ∧ s.cfg.sMax < c.bytes.length := by decide

theorem witness_ResetInputClearsAssemblerAndResponse :
    let s : State := { collectingState [0xF0, 0x41] none with inputs := [.reset, .reset] }
    s.inputs = .reset :: [.reset] := by decide

theorem witness_ReadFaultsOnlyWithoutValue :
    let s : State := { testState with resp := { Response.noValue with status := some 0 }, inputs := [.read .rv] }
    s.inputs = .read .rv :: [] ∧ s.resp.read .rv = none ∧ s.resp.read .status = some (.status 0) := by decide

theorem witness_NothingHappensBetweenCommands : testState.inputs = [] := by decide

/-- The reserved field and the opcode of the twelve command words, with every ignored bit set. -/
theorem witness_command_words_of_the_results :
    ∀ op ∈ Op.table, (0x00FFFF00#32 ||| op.code.setWidth 32).extractLsb' 24 8 = 0
      ∧ (0x00FFFF00#32 ||| op.code.setWidth 32).extractLsb' 0 8 = op.code := by decide

/-- Both bounds of `G` and `W`, and both values beside each. -/
theorem witness_PackRunsPacksGroups :
    (1 ≤ (1#4).toNat ∧ (8#4).toNat ≤ 8 ∧ (1#4).toNat ≤ 8 ∧ 1 ≤ (8#4).toNat)
      ∧ (0#4).toNat < 1 ∧ 8 < (9#4).toNat := by decide

theorem witness_Unpack128FoldsBytes :
    ([0xFF, 0xFF, 0xFF, 0xFF] : Bytes).length ≤ 4 ∧ 4 < ([0, 0, 0, 0, 1] : Bytes).length := by decide

theorem witness_EncColorSplitsChannels :
    ([1, 2] : Bytes).length ≠ 3 ∧ ([1, 2, 3, 4] : Bytes).length ≠ 3 := by decide

theorem witness_PackAndUnpackAreInverse_pack :
    ∃ t, exec (.pack7 0x0FFFFFFF) testState = .next t ∧ t.resp.rb = some [0x7F, 0x7F, 0x7F, 0x7F]
      ∧ (0x0FFFFFFF : Word).toNat < 2 ^ 28 := ⟨_, rfl, by decide, by decide⟩

theorem witness_PackAndUnpackAreInverse_unpack :
    ∃ t, ([0x7F, 0x00, 0x24, 0x7F] : Bytes).length = 4 ∧ (∀ x ∈ ([0x7F, 0x00, 0x24, 0x7F] : Bytes), x.toNat ≤ 0x7F)
      ∧ exec (.unpack128 [0x7F, 0x00, 0x24, 0x7F]) testState = .next t ∧ t.resp.rv = some 0x0FE0127F :=
  ⟨_, by decide, by decide, rfl, by decide⟩

theorem witness_AddrUcComputesUserColorAddress :
    testState.cfg.wellFormed = true ∧ 4 < (5 : Word).toNat := by decide

theorem witness_BuiltFramesRecoverTheirOperands_dt1 :
    ∃ t f, exec (.buildDt1 true 0x10 0xF0000001 [0xF7]) testState = .next t ∧ t.resp.frame = some f :=
  ⟨_, _, rfl, rfl⟩

theorem witness_BuiltFramesRecoverTheirOperands_rq1 :
    ∃ t f, exec (.buildRq1 true 0x10 0xF0000001 4) testState = .next t ∧ t.resp.frame = some f := ⟨_, _, rfl, rfl⟩

theorem witness_EveryComposedFrameIsPadded :
    ∃ t wire, exec .buildIdReq testState = .next t ∧ t.resp.wire = some wire := ⟨_, _, rfl, rfl⟩

theorem witness_BuildersComposeConformingFrames :
    ∃ t frame, testState.cfg.wellFormed = true ∧ (Instr.buildDt1 true 0x7F 0xFFFFFFFF [0x7F]).op = .buildDt1
      ∧ (∀ x ∈ (Instr.buildDt1 true 0x7F 0xFFFFFFFF [0x7F]).byteOperand, x.toNat ≤ 0x7F)
      ∧ exec (.buildDt1 true 0x7F 0xFFFFFFFF [0x7F]) testState = .next t ∧ t.resp.frame = some frame :=
  ⟨_, _, by decide, rfl, by decide, rfl, rfl⟩

theorem witness_FeedInIdleDropsUnstartedFragments :
    testState.asm = .idle ∧ ([0x41, 0xF7] : Bytes) ≠ [] ∧ ([0x41, 0xF7] : Bytes).head? ≠ some 0xF0 := by decide

/-- A start in `Idle` that fills the cap exactly. -/
theorem witness_FeedKeepsUnterminatedFragments_idle :
    let s : State := { testState with cfg := { testConfig with bufCap := some 2 } }
    TakenInto s [0xF0, 0x01] [0xF0, 0x01] ∧ (0xF7 : Byte) ∉ ([0xF0, 0x01] : Bytes) ∧ WithinCap s.cfg [0xF0, 0x01] :=
  ⟨.inl ⟨rfl, rfl, rfl⟩, by decide, fun cap h => by cases h; decide⟩

theorem witness_FeedKeepsUnterminatedFragments_append :
    TakenInto (collectingState [0xF0, 0x01] none) [0xF0, 0x02] [0xF0, 0x01, 0xF0, 0x02]
      ∧ (0xF7 : Byte) ∉ ([0xF0, 0x02] : Bytes)
      ∧ WithinCap (collectingState [0xF0, 0x01] none).cfg [0xF0, 0x01, 0xF0, 0x02] :=
  ⟨.inr (.inr ⟨rfl, by decide, .inl rfl, rfl⟩), by decide, fun cap h => by cases h⟩

/-- 95_test_vectors.md F21. -/
theorem witness_FeedKeepsUnterminatedFragments_past_cap :
    TakenInto (collectingState [0xF0, 0x01] (some 4)) [0x02, 0x03, 0x04] [0xF0, 0x01, 0x02, 0x03, 0x04]
      ∧ (collectingState [0xF0, 0x01] (some 4)).cfg.bufCap = some 4
      ∧ 4 < ([0xF0, 0x01, 0x02, 0x03, 0x04] : Bytes).length :=
  ⟨.inr (.inr ⟨rfl, by decide, .inl rfl, rfl⟩), rfl, by decide⟩

/-- The shortest frame, with `CHECK_INTERIOR` and a restart. -/
theorem witness_FeedEmitsOrDropsTheTrimmedBuffer_emits :
    let s : State := { collectingState [0xF0, 0x01] none with
      cfg := { testConfig with restartOnF0 := true, checkInterior := true } }
    TakenInto s [0xF0, 0xF7, 0x00] [0xF0, 0xF7, 0x00] ∧ (0xF7 : Byte) ∈ ([0xF0, 0xF7, 0x00] : Bytes)
      ∧ WithinCap s.cfg [0xF0, 0xF7, 0x00]
      ∧ ([0xF0, 0xF7, 0x00] : Bytes) = [0xF0, 0xF7] ++ List.replicate 1 0x00
      ∧ ([0xF0, 0xF7] : Bytes).getLast? ≠ some 0x00
      ∧ AcceptedFrame s.cfg [0xF0, 0xF7] :=
  ⟨.inr (.inl ⟨rfl, rfl, rfl, rfl⟩), by decide, fun cap h => (by cases h), rfl, by decide, [], rfl,
    fun _ => by decide⟩

/-- 95_test_vectors.md F4: the last byte after trimming is 0x05. -/
theorem witness_FeedEmitsOrDropsTheTrimmedBuffer_drops :
    TakenInto testState [0xF0, 0x01, 0xF7, 0x05] [0xF0, 0x01, 0xF7, 0x05]
      ∧ (0xF7 : Byte) ∈ ([0xF0, 0x01, 0xF7, 0x05] : Bytes) ∧ WithinCap testState.cfg [0xF0, 0x01, 0xF7, 0x05]
      ∧ ([0xF0, 0x01, 0xF7, 0x05] : Bytes) = [0xF0, 0x01, 0xF7, 0x05] ++ List.replicate 0 0x00
      ∧ ([0xF0, 0x01, 0xF7, 0x05] : Bytes).getLast? ≠ some 0x00
      ∧ ¬ AcceptedFrame testState.cfg [0xF0, 0x01, 0xF7, 0x05] :=
  ⟨.inl ⟨rfl, rfl, rfl⟩, by decide, fun cap h => (by cases h), rfl, by decide,
    fun h => absurd (acceptsCandidate_iff.mpr h) (by decide)⟩

theorem witness_EmittedFramesAreFramed :
    ∃ t, exec (.feed [0xF0, 0x80, 0xF7]) testState = .next t ∧ t.resp.fv = some true := ⟨_, rfl, rfl⟩

/-- 95_test_vectors.md F6, with the cap met exactly. -/
theorem witness_FragmentsFedInTurnAreTheirConcatenation :
    let s : State := { testState with cfg := { testConfig with bufCap := some 5 } }
    ∃ t, s.asm = .idle ∧ ([0xF0, 0x01] : Bytes).head? = some 0xF0 ∧ (0xF7 : Byte) ∉ ([0xF0, 0x01] : Bytes)
      ∧ ([0xF0, 0x02, 0xF7] : Bytes) ≠ [] ∧ s.cfg.restartOnF0 = false
      ∧ WithinCap s.cfg ([0xF0, 0x01] ++ [0xF0, 0x02, 0xF7]) ∧ exec (.feed [0xF0, 0x01]) s = .next t :=
  ⟨_, rfl, rfl, by decide, by decide, rfl, fun cap h => (by cases h; decide), rfl⟩

theorem witness_FeedingAComposedWireEmitsItsFrame :
    ∃ t frame wire, testState.cfg.wellFormed = true ∧ testState.asm = .idle ∧ testState.cfg.checkInterior = false
      ∧ exec (.buildDt1 true 0x10 0 [0xF7, 0x01]) testState = .next t ∧ t.resp.frame = some frame
      ∧ t.resp.wire = some wire ∧ WithinCap testState.cfg wire :=
  ⟨_, _, _, by decide, rfl, rfl, rfl, rfl, rfl, fun cap h => by cases h⟩

/-- 95_test_vectors.md D4: 13 bytes. -/
theorem witness_DecodeIdReadsIdentityReplies :
    ¬ ∃ dev mfr f0 f1 m0 m1 v0 v1 v2 v3 : Byte,
      ([0xF0, 0x7E, 0x10, 0x06, 0x02, 0x41, 1, 2, 3, 4, 0, 0, 0xF7] : Bytes) =
        [0xF0, 0x7E, dev, 0x06, 0x02, mfr, f0, f1, m0, m1, v0, v1, v2, v3, 0xF7] := by
  simp

theorem witness_OnlyFeedUnderABoundedCapIsRefusedByExec :
    (∀ bytes, Instr.decodeId [] ≠ .feed bytes) ∧ testState.cfg.bufCap = none
      ∧ exec (.feed [0xF0, 0x01]) { testState with cfg := { testConfig with bufCap := some 1 } } =
          .refused .bufferCap := ⟨by simp, rfl, rfl⟩

theorem witness_CommandsOtherThanFeedArePure :
    (∀ bytes, Instr.addrUc 0 ≠ .feed bytes) ∧ testState.cfg = (collectingState [0xF0] none).cfg := ⟨by simp, rfl⟩

/-- One step that answers a next state, and writes the assembler, from a state that meets the invariant. -/
theorem witness_steps :
    let s : State := { testState with inputs := [.command ⟨0x20, 0, 0, [0xF0]⟩] }
    ∃ t, Inv s ∧ step s = .next t ∧ t.asm ≠ s.asm ∧ s.inputs = .command ⟨0x20, 0, 0, [0xF0]⟩ :: [] :=
  ⟨_, ⟨by decide, ⟨fun _ => rfl, by simp [testState, State.construct], by simp [testState, State.construct, testConfig]⟩,
    by simp [ResponseInv, testState, State.construct, Response.noValue]⟩, rfl, by decide, rfl⟩

theorem witness_ResetMeetsTheInvariant : testConfig.wellFormed = true := by decide

/-- All four error codes: 95_test_vectors.md F4, 2.7, 2.8 and 2.3. -/
theorem witness_ErrorsComeFromTheirCommands :
    (∃ t, exec (.feed [0xF0, 0x01, 0xF7, 0x05]) testState = .next t ∧ t.resp.status = some 0x1)
      ∧ (∃ t, exec (.addrUc 5) testState = .next t ∧ t.resp.status = some 0x2)
      ∧ (∃ t, exec (.buildRq1 false 0x10 0 4) testState = .next t ∧ t.resp.status = some 0x3)
      ∧ (∃ t, exec (.buildDt1 false 0 0 [0x01]) testState = .next t ∧ t.resp.status = some 0x3)
      ∧ ∃ t, exec (.packRuns 9 4 1) testState = .next t ∧ t.resp.status = some 0xF :=
  ⟨⟨_, rfl, rfl⟩, ⟨_, rfl, rfl⟩, ⟨_, rfl, rfl⟩, ⟨_, rfl, rfl⟩, _, rfl, rfl⟩

theorem witness_ErrorsWriteNothingElse :
    ∃ t, runCommand ⟨0x20, 0, 0, [0xF0, 0xF7, 0x05]⟩ testState = .next t ∧ t.resp.status = some 0x1
      ∧ (0x1 : BitVec 4) ≠ 0x0 :=
  ⟨_, rfl, rfl, by decide⟩

/-- A reserved opcode, and a command that completes normally. -/
theorem witness_EveryCommandWritesAProducedStatus :
    (∃ t, runCommand ⟨0x07, 0, 0, []⟩ testState = .next t) ∧ ∃ t, runCommand ⟨0x13, 0, 0, []⟩ testState = .next t :=
  ⟨⟨_, rfl⟩, ⟨_, rfl⟩⟩

/-- 95_test_vectors.md F11. -/
theorem witness_NoTerminatorNoFrame :
    ∃ t responses, (∀ fragment ∈ ([[0xF0, 0x01, 0x02], [0x03, 0x04], [0x05]] : List Bytes), (0xF7 : Byte) ∉ fragment)
      ∧ runCommands (([[0xF0, 0x01, 0x02], [0x03, 0x04], [0x05]] : List Bytes).map fun fragment =>
          encode (.feed fragment)) testState = .next (t, responses) := ⟨_, _, by decide, rfl⟩

/-- 95_test_vectors.md P5. -/
theorem witness_OtherCommandsChangeNoFeedResult :
    ∃ t responses, runCommands [encode (.feed [0xF0, 0x41]), encode (.checksum [0x05]), encode (.feed [0x7B])]
      testState = .next (t, responses) ∧ responses.length = 3 := ⟨_, _, rfl, rfl⟩

theorem witness_SetColorComposesTheColorFrame : 4 < (5 : Word).toNat ∧ testState.cfg.wellFormed = true := by decide

theorem witness_WrittenLinesAssembleToTheirCommands :
    (∀ dev a b, Instr.buildRq1 false 0 1 2 = .buildRq1 false dev a b → dev = 0)
      ∧ ∀ dev a bytes, Instr.buildRq1 false 0 1 2 = .buildDt1 false dev a bytes → dev = 0 :=
  ⟨fun _ _ _ h => by cases h; rfl, fun _ _ _ h => by cases h⟩

end Sys2Proof.Tests
end

section
/-! The command word under match and mask, and the command words that name no command (30_encoding.md R41 to R43). -/

namespace Sys2Proof

open Machine

/-- Under the mask of 30_encoding.md R42 only `RSVD` and `OP` of a command word remain. -/
theorem and_opcodeMask_eq_packWord (cw : Word) :
    cw &&& 0xFF0000FF#32 = packWord (fieldRsvd cw) false 0 0 0 (fieldOp cw) := by
  refine BitVec.eq_of_getLsbD_eq fun k hk => ?_
  rw [BitVec.getLsbD_and, packWord_getLsbD, fieldRsvd, fieldOp]
  interval_cases k <;> simp

/-- An opcode as the `match` of 30_encoding.md R42 is the command word whose other fields are 0. -/
theorem packWord_opcode_only (code : BitVec 8) : packWord 0 false 0 0 0 code = code.setWidth 32 := by
  rw [packWord_eq_shifts]
  simp

/-- Match and mask together test `RSVD` and `OP` and no other field (30_encoding.md R42). -/
theorem and_opcodeMask_eq_iff (cw : Word) (code : BitVec 8) :
    cw &&& 0xFF0000FF#32 = code.setWidth 32 ↔ fieldRsvd cw = 0 ∧ fieldOp cw = code := by
  rw [and_opcodeMask_eq_packWord, ← packWord_opcode_only]
  constructor
  · intro h
    exact ⟨by simpa using congrArg fieldRsvd h, by simpa using congrArg fieldOp h⟩
  · rintro ⟨hr, ho⟩
    rw [hr, ho]

/-- A command decodes to mnemonic `op` exactly when `RSVD` is 0 and `OP` is the opcode of `op`. -/
theorem decode_op_iff (c : Command) (op : Op) :
    (∃ i, decode c = .instr i ∧ i.op = op) ↔ fieldRsvd c.cw = 0 ∧ fieldOp c.cw = op.code := by
  constructor
  · rintro ⟨i, hd, rfl⟩
    obtain ⟨hr, ho, -⟩ := fields_of_decode hd
    exact ⟨hr, ho⟩
  · rintro ⟨hr, ho⟩
    exact ⟨_, decode_of_fields hr ho, Op.withOperands_op op c⟩

/-- One row of the opcode map as match and mask (30_encoding.md R42). -/
theorem opcode_matches_iff_decode_op (c : Command) (op : Op) :
    c.cw &&& 0xFF0000FF#32 = op.code.setWidth 32 ↔ ∃ i, decode c = .instr i ∧ i.op = op :=
  (and_opcodeMask_eq_iff c.cw op.code).trans (decode_op_iff c op).symm

/-- No row of the opcode map has a reserved opcode (30_encoding.md R43). -/
theorem not_reservedOpcode_code (op : Op) : ¬ ReservedOpcode op.code := by
  cases op <;> simp [ReservedOpcode, Op.code]

/-- A command word with reserved bits set or with a reserved opcode names no command. -/
theorem decode_ne_instr_of_reserved {c : Command} (h : fieldRsvd c.cw ≠ 0 ∨ ReservedOpcode (fieldOp c.cw))
    (i : Instr) : decode c ≠ .instr i := by
  intro hd
  obtain ⟨hr, ho, -⟩ := fields_of_decode hd
  rcases h with hbits | hcode
  · exact hbits hr
  · exact not_reservedOpcode_code i.op (ho ▸ hcode)

/-- Settles O4: one instance of the row's match and mask for each opcode. -/
theorem opcodeMapSelectsEachCommand : Obligations.OpcodeMapSelectsEachCommand := by
  intro c
  have row := opcode_matches_iff_decode_op c
  exact ⟨row .pack7, row .nibSplit, row .packRuns, row .unpack128, row .checksum, row .encColor, row .addrUc,
    row .buildRq1, row .buildDt1, row .buildIdReq, row .feed, row .decodeId⟩

/-- Settles O7: of the three things a command can do, refusing is excluded by the length of `S` and running an
instruction by the reserved word. -/
theorem reservedCommandWordsAreIllegal : Obligations.ReservedCommandWordsAreIllegal := by
  intro s c hlen hreserved
  obtain ⟨-, hlong⟩ | ⟨hrun, -, -⟩ | ⟨i, -, -, hd⟩ := runCommand_cases c s
  · exact absurd hlong (Nat.not_lt.mpr hlen)
  · exact hrun
  · exact absurd hd (decode_ne_instr_of_reserved hreserved i)

end Sys2Proof
end

section
/-! The functions of the byte codec are the spec's own descriptions of them (40_bytecodec.md R56 to R64), and the
round trips between packing and unpacking (R62). -/

namespace Sys2Proof.Machine

/-! ### Packing -/

/-- The groups of a bit vector are its bit fields, the most significant first (40_bytecodec.md R56). -/
theorem packBitRuns_toNat {n : Nat} (v : BitVec n) (g w : Nat) :
    packBitRuns v.toNat g w = (List.range w).map fun i => (v.extractLsb' (g * (w - 1 - i)) g).setWidth 8 := by
  rw [packBitRuns_eq]
  refine List.map_congr_left fun i _ => BitVec.eq_of_toNat_eq ?_
  rw [BitVec.toNat_ofNat, BitVec.toNat_setWidth, BitVec.extractLsb'_toNat, Nat.shiftRight_eq_div_pow]

/-- Each bit of a packed byte: a bit of its group, or 0 above the group (40_bytecodec.md R59). -/
theorem packBitRuns_toNat_getLsbD {n : Nat} (v : BitVec n) {g w i j : Nat} (hi : i < w) (hj : j < 8) :
    ((packBitRuns v.toNat g w).getD i 0).getLsbD j = (decide (j < g) && v.getLsbD (g * (w - 1 - i) + j)) := by
  rw [packBitRuns_toNat]
  simp [hi, hj]

/-- An address is packed into its four 7-bit fields (40_bytecodec.md R57). -/
theorem packAddress_eq_sevenBitGroups (v : Word) : packAddress v = sevenBitGroups v :=
  packBitRuns_toNat v 7 4

/-- A word is split into the four nibbles of its low half (40_bytecodec.md R58). -/
theorem nibbleSplit_word (v : Word) : nibbleSplit v.toNat = nibblesOf v :=
  packBitRuns_toNat v 4 4

/-- A byte's two upper groups are 0, and the lower two are its nibbles (40_bytecodec.md R65). -/
theorem nibbleSplit_byte (x : Byte) :
    nibbleSplit x.toNat = [0, 0, (x.extractLsb' 4 4).setWidth 8, (x.extractLsb' 0 4).setWidth 8] := by
  have above (start : Nat) (h : 8 ≤ start) : x.extractLsb' start 4 = 0 :=
    BitVec.eq_of_getLsbD_eq fun i _ => by simp [BitVec.getLsbD_of_ge x (start + i) (by omega)]
  calc nibbleSplit x.toNat
      = [(x.extractLsb' 12 4).setWidth 8, (x.extractLsb' 8 4).setWidth 8, (x.extractLsb' 4 4).setWidth 8,
          (x.extractLsb' 0 4).setWidth 8] := packBitRuns_toNat x 4 4
    _ = _ := by rw [above 12 (by decide), above 8 (by decide)]; rfl

/-- A byte is made of its two nibbles (40_bytecodec.md R65). -/
theorem byte_eq_nibbles (x : Byte) :
    ((x.extractLsb' 4 4).setWidth 8 <<< 4 ||| (x.extractLsb' 0 4).setWidth 8 : Byte) = x := by
  refine BitVec.eq_of_getLsbD_eq fun i hi => ?_
  rw [BitVec.getLsbD_or, BitVec.getLsbD_shiftLeft]
  by_cases hlow : i < 4
  · simp [hi, hlow]
  · have hback : 4 + (i - 4) = i := by omega
    have hhigh : i - 4 < 4 ∧ i - 4 < 8 := by omega
    simp [hi, hlow, hback, hhigh]

/-! ### Unpacking -/

/-- One more byte moves every earlier one up by one place of base 128 (40_bytecodec.md R60). -/
theorem base128Value_append_singleton (bytes : Bytes) (x : Byte) :
    base128Value (bytes ++ [x]) = base128Value bytes * 128 + x.toNat := by
  have earlier : ∀ i ∈ List.range bytes.length,
      ((bytes ++ [x]).getD i 0).toNat * 128 ^ (bytes.length - i)
        = (bytes.getD i 0).toNat * 128 ^ (bytes.length - 1 - i) * 128 := by
    intro i hi
    have hi : i < bytes.length := List.mem_range.mp hi
    rw [List.getD_append _ _ _ _ hi, show bytes.length - i = bytes.length - 1 - i + 1 by omega, Nat.pow_succ,
      Nat.mul_assoc]
  simp only [base128Value, List.length_append, List.length_singleton, Nat.add_sub_cancel, List.range_succ,
    List.map_append, List.sum_append, List.map_congr_left earlier, List.sum_map_mul_right]
  simp

/-- The fold of 40_bytecodec.md R60 is the value in base 128. -/
theorem unpackBase128_eq_base128Value (bytes : Bytes) : unpackBase128 bytes = base128Value bytes := by
  induction bytes using List.reverseRecOn with
  | nil => rfl
  | append_singleton front x ih => rw [unpackBase128_append_singleton, base128Value_append_singleton, ih]

/-- The largest value of `n` bytes: 0xFF in each of their places of base 128 (40_bytecodec.md R60). -/
theorem unpackBase128_le (bytes : Bytes) : 127 * unpackBase128 bytes + 255 ≤ 255 * 128 ^ bytes.length := by
  induction bytes using List.reverseRecOn with
  | nil => exact Nat.le_refl _
  | append_singleton front x ih =>
    have hx : x.toNat < 256 := x.isLt
    rw [unpackBase128_append_singleton, List.length_append, List.length_singleton, Nat.pow_succ]
    omega

/-- What UNPACK128 takes fits `RV`: "`zext_32` never truncates" (40_bytecodec.md R61). -/
theorem unpackBase128_lt_of_length_le {bytes : Bytes} (h : bytes.length ≤ 4) : unpackBase128 bytes < 2 ^ 32 := by
  have hmax := unpackBase128_le bytes
  have hplaces : 128 ^ bytes.length ≤ 128 ^ 4 := Nat.pow_le_pow_right (by decide) h
  omega

/-- Law (b) of 40_bytecodec.md R62. -/
theorem unpackBase128_packBitRuns (a : Nat) : unpackBase128 (packBitRuns a 7 4) = a % 2 ^ 28 := by
  simp only [packBitRuns_seven_four, unpackBase128, List.foldl_cons, List.foldl_nil, BitVec.toNat_ofNat]
  omega

/-- Law (c) of 40_bytecodec.md R62. -/
theorem packBitRuns_unpackBase128 {bytes : Bytes} (hlen : bytes.length = 4) (hseven : ∀ x ∈ bytes, x.toNat ≤ 0x7F) :
    packBitRuns (unpackBase128 bytes) 7 4 = bytes := by
  obtain ⟨p, q, r, t, rfl⟩ := List.length_eq_four.mp hlen
  simp only [List.forall_mem_cons] at hseven
  obtain ⟨hp, hq, hr, ht, -⟩ := hseven
  have group {x : Byte} {m : Nat} (h : m = x.toNat) : BitVec.ofNat 8 m = x := by
    rw [h, BitVec.ofNat_toNat, BitVec.setWidth_eq]
  simp only [packBitRuns_seven_four, unpackBase128, List.foldl_cons, List.foldl_nil, List.cons.injEq, and_true]
  exact ⟨group (by omega), group (by omega), group (by omega), group (by omega)⟩

/-! ### Checksum -/

/-- A checksum completes its payload's sum to a multiple of 128 (40_bytecodec.md R64). -/
theorem isChecksumOf_checksumOf (payload : Bytes) : IsChecksumOf payload (checksumOf payload) := by
  refine ⟨checksumOf_lt payload, ?_⟩
  simp only [checksumOf, checksumModulus, byteSum]
  omega

end Sys2Proof.Machine
end

section
/-! The byte codec's commands (40_bytecodec.md R57 to R65). -/

namespace Sys2Proof

open Machine

/-- UNPACK128's range test (40_bytecodec.md R61). -/
theorem unpackInRange_iff {bytes : Bytes} : unpackInRange bytes = true ↔ bytes.length ≤ 4 := by
  rw [unpackInRange, decide_eq_true_iff]

/-! ### What each command does, case by case -/

/-- PACK7 (40_bytecodec.md R57). -/
theorem exec_pack7 (a : Word) (s : State) :
    exec (.pack7 a) s =
      .next { s with resp := { Response.noValue with status := some 0x0, rb := some (packAddress a) } } :=
  exec_pure (by simp) s

/-- PACKRUNS with both fields in range (40_bytecodec.md R59). -/
theorem exec_packRuns_of_inRange {g w : BitVec 4} (h : packRunsInRange g w = true) (a : Word) (s : State) :
    exec (.packRuns g w a) s =
      .next { s with resp :=
        { Response.noValue with status := some 0x0, rb := some (packBitRuns a.toNat g.toNat w.toNat) } } := by
  rw [exec_pure (by simp), pureResponse, if_pos h]

/-- PACKRUNS with a field out of range (40_bytecodec.md R59). -/
theorem exec_packRuns_of_not_inRange {g w : BitVec 4} (h : ¬ packRunsInRange g w = true) (a : Word) (s : State) :
    exec (.packRuns g w a) s = .next { s with resp := { Response.noValue with status := some 0xF } } := by
  rw [exec_pure (by simp), pureResponse, if_neg h]

/-- UNPACK128 of at most four bytes: the value in base 128, without truncation (40_bytecodec.md R61). -/
theorem exec_unpack128_of_length_le {bytes : Bytes} (h : bytes.length ≤ 4) (s : State) :
    ∃ v : Word,
      exec (.unpack128 bytes) s = .next { s with resp := { Response.noValue with status := some 0x0, rv := some v } }
      ∧ v.toNat = unpackBase128 bytes := by
  refine ⟨BitVec.ofNat 32 (unpackBase128 bytes), ?_, ?_⟩
  · rw [exec_pure (by simp), pureResponse, if_pos (unpackInRange_iff.mpr h)]
  · rw [BitVec.toNat_ofNat, Nat.mod_eq_of_lt (unpackBase128_lt_of_length_le h)]

/-- UNPACK128 of more than four bytes (40_bytecodec.md R61). -/
theorem exec_unpack128_of_lt_length {bytes : Bytes} (h : 4 < bytes.length) (s : State) :
    exec (.unpack128 bytes) s = .next { s with resp := { Response.noValue with status := some 0xF } } := by
  rw [exec_pure (by simp), pureResponse, if_neg (Nat.not_le.mpr h ∘ unpackInRange_iff.mp)]

/-- ENCCOLOR of any number of bytes but three (40_bytecodec.md R65). -/
theorem exec_encColor_of_length_ne {bytes : Bytes} (h : bytes.length ≠ 3) (s : State) :
    exec (.encColor bytes) s = .next { s with resp := { Response.noValue with status := some 0xF } } := by
  rw [exec_pure (by simp), pureResponse, colorChannels_eq_none.mpr h]

/-! ### The obligations -/

/-- Settles O12: the packing of an address is its four 7-bit fields. -/
theorem pack7PacksSevenBitGroups : Obligations.Pack7PacksSevenBitGroups := by
  refine ⟨fun c hr ho => decode_of_fields (op := .pack7) hr ho, fun a s => ?_⟩
  rw [exec_pack7, packAddress_eq_sevenBitGroups]

/-- Settles O13: the nibble split of a word is its four low 4-bit fields. -/
theorem nibSplitSplitsNibbles : Obligations.NibSplitSplitsNibbles := by
  refine ⟨fun c hr ho => decode_of_fields (op := .nibSplit) hr ho, fun a s => ?_⟩
  rw [exec_pure (by simp), pureResponse, nibbleSplit_word]

/-- Settles O14: the range test decides between the two cases, and each bit of a group is a bit of `A`. -/
theorem packRunsPacksGroups : Obligations.PackRunsPacksGroups := by
  refine ⟨fun c hr ho => decode_of_fields (op := .packRuns) hr ho, ?_, ?_⟩
  · intro g w a s hg hg8 hw hw8
    exact ⟨_, exec_packRuns_of_inRange (packRunsInRange_iff.mpr ⟨hg, hg8, hw, hw8⟩) a s, packBitRuns_length _ _ _,
      fun i j hi hj => packBitRuns_toNat_getLsbD a hi hj⟩
  · intro g w a s hout
    refine exec_packRuns_of_not_inRange (fun h => ?_) a s
    obtain ⟨hg, hg8, hw, hw8⟩ := packRunsInRange_iff.mp h
    omega

/-- Settles O15: the fold is the value in base 128, and four bytes of it fit 32 bits. -/
theorem unpack128FoldsBytes : Obligations.Unpack128FoldsBytes := by
  refine ⟨fun c hr ho => decode_of_fields (op := .unpack128) hr ho, fun bytes s h => ?_,
    fun bytes s h => exec_unpack128_of_lt_length h s⟩
  rw [← unpackBase128_eq_base128Value]
  exact exec_unpack128_of_length_le h s

/-- Settles O16: the checksum is below 128, so `RV` holds it whole. -/
theorem checksumCompletesTheSum : Obligations.ChecksumCompletesTheSum := by
  refine ⟨fun c hr ho => decode_of_fields (op := .checksum) hr ho, fun bytes s => ?_⟩
  have hv : (BitVec.ofNat 32 (checksumOf bytes)).toNat = checksumOf bytes := by
    rw [BitVec.toNat_ofNat, Nat.mod_eq_of_lt ((checksumOf_lt bytes).trans (by decide))]
  refine ⟨BitVec.ofNat 32 (checksumOf bytes), exec_pure (by simp) s, hv, ?_⟩
  rw [hv]
  exact isChecksumOf_checksumOf bytes

/-- Settles O17: each channel is split as a byte. -/
theorem encColorSplitsChannels : Obligations.EncColorSplitsChannels := by
  refine ⟨fun c hr ho => decode_of_fields (op := .encColor) hr ho, fun red green blue s => ?_, byte_eq_nibbles,
    fun bytes s h => exec_encColor_of_length_ne h s⟩
  rw [exec_pure (by simp)]
  simp only [pureResponse, colorChannels, nibbleSplit_byte, List.cons_append, List.nil_append]

/-- Settles O18: the laws of the functions, carried through the commands by their results. -/
theorem packAndUnpackAreInverse : Obligations.PackAndUnpackAreInverse := by
  refine ⟨fun a s t rb hpack hrb => ?_, fun bytes s t v hlen hseven hunpack hrv => ?_, unpackBase128_packBitRuns,
    by decide⟩
  · obtain rfl := Host.Outcome.next.inj ((exec_pack7 a s).symm.trans hpack)
    obtain rfl : packAddress a = rb := Option.some.inj hrb
    obtain ⟨v, hexec, hv⟩ := exec_unpack128_of_length_le (Nat.le_of_eq (packAddress_length a)) _
    have hmod : v.toNat = a.toNat % 2 ^ 28 := hv.trans (unpackBase128_packBitRuns a.toNat)
    exact ⟨v, hexec, hmod, fun ha => BitVec.eq_of_toNat_eq (hmod.trans (Nat.mod_eq_of_lt ha))⟩
  · obtain ⟨u, hexec, hu⟩ := exec_unpack128_of_length_le (Nat.le_of_eq hlen) s
    obtain rfl := Host.Outcome.next.inj (hexec.symm.trans hunpack)
    obtain rfl : u = v := Option.some.inj hrv
    have hback : packAddress u = bytes := by
      rw [packAddress, hu]
      exact packBitRuns_unpackBase128 hlen hseven
    rw [exec_pack7, hback]

end Sys2Proof
end

section
/-! The AddressSpace command (41_addressspace.md R67, R68). -/

namespace Sys2Proof

open Machine

/-- On a well-formed configuration the address of every palette slot is below 2^28 (10_state.md R20). -/
theorem slotAddress_lt_of_wellFormed {c : Config} (h : c.wellFormed = true) {slot : Nat}
    (hslot : slot ∈ c.userPaletteSlotIndex.toList) : c.slotAddress slot < 2 ^ 28 := by
  simp only [Config.wellFormed, Bool.and_eq_true, List.all_eq_true, decide_eq_true_iff] at h
  obtain ⟨-, hslots⟩ := h
  exact hslots slot hslot

/-- A user-colour address is the address of its index's palette slot (41_addressspace.md R67). -/
theorem userColorAddress_eq_slotAddress (c : Config) (i : Fin 5) :
    userColorAddress c i = c.slotAddress (c.userPaletteSlotIndex.get i) := rfl

/-- On a well-formed configuration every user-colour address is below 2^28 (41_addressspace.md R68). -/
theorem userColorAddress_lt_of_wellFormed {c : Config} (h : c.wellFormed = true) (i : Fin 5) :
    userColorAddress c i < 2 ^ 28 := by
  rw [userColorAddress_eq_slotAddress]
  exact slotAddress_lt_of_wellFormed h (Vector.mem_toList_iff.mpr (Vector.getElem_mem i.isLt))

/-- On a well-formed configuration `RV` holds a user-colour address whole (41_addressspace.md R68). -/
theorem ofNat_userColorAddress_toNat {c : Config} (h : c.wellFormed = true) (i : Fin 5) :
    (BitVec.ofNat 32 (userColorAddress c i)).toNat = userColorAddress c i := by
  rw [BitVec.toNat_ofNat, Nat.mod_eq_of_lt ((userColorAddress_lt_of_wellFormed h i).trans (by decide))]

/-- Every index 0 to 4 is taken as it stands (41_addressspace.md R68). -/
theorem userColorIndex_ofNat (i : Fin 5) : userColorIndex (BitVec.ofNat 32 i.val) = some i := by
  fin_cases i <;> rfl

/-- ADDRUC of an index 0 to 4 (41_addressspace.md R68). -/
theorem exec_addrUc_ofNat (i : Fin 5) (s : State) :
    exec (.addrUc (BitVec.ofNat 32 i.val)) s =
      .next { s with resp :=
        { Response.noValue with status := some 0x0, rv := some (BitVec.ofNat 32 (userColorAddress s.cfg i)) } } := by
  rw [exec_pure (by simp), pureResponse, userColorIndex_ofNat]

/-- ADDRUC of an index above 4 (41_addressspace.md R68). -/
theorem exec_addrUc_of_four_lt {b : Word} (h : 4 < b.toNat) (s : State) :
    exec (.addrUc b) s = .next { s with resp := { Response.noValue with status := some 0x2 } } := by
  rw [exec_pure (by simp), pureResponse, userColorIndex_eq_none.mpr h]

/-- Settles O19: R20 bounds the address below 2^28, so `RV` holds it whole, and the index test decides between the two
cases. -/
theorem addrUcComputesUserColorAddress : Obligations.AddrUcComputesUserColorAddress := by
  refine ⟨fun c hr ho => decode_of_fields (op := .addrUc) hr ho, fun i s hwf => ?_,
    fun b s h => exec_addrUc_of_four_lt h s⟩
  have hv := ofNat_userColorAddress_toNat hwf i
  exact ⟨_, exec_addrUc_ofNat i s, hv, hv.trans_lt (userColorAddress_lt_of_wellFormed hwf i)⟩

end Sys2Proof
end

section
/-! The parts of a composed frame at their offsets (30_encoding.md R46, 42_messagebuilder.md R69, R74). -/

namespace Sys2Proof.Machine

/-- What `pad4` makes of a frame is the frame with its padding (42_messagebuilder.md R69). -/
theorem paddedTo4_pad4 (frame : Bytes) : PaddedTo4 frame (pad4 frame) :=
  pad4_eq frame

/-- The checksum byte a frame carries completes its payload's sum (30_encoding.md R54). -/
theorem isChecksumOf_checksumByte (payload : Bytes) : IsChecksumOf payload (checksumByte payload).toNat := by
  rw [checksumByte_toNat]
  exact isChecksumOf_checksumOf payload

/-- Law (b) of 40_bytecodec.md R62 for a packed operand. -/
theorem unpackBase128_packAddress (v : Word) : unpackBase128 (packAddress v) = v.toNat % 2 ^ 28 :=
  unpackBase128_packBitRuns v.toNat

section
variable {modelId : Bytes} {dev : BitVec 7} {opcode : Byte} {payload : Bytes}

/-- The device id is the third byte. -/
theorem parameterFrame_getElem?_two : (parameterFrame modelId dev opcode payload)[2]? = some (dev.setWidth 8) := by
  simp [parameterFrame]

/-- The frame from the model id on. -/
theorem parameterFrame_drop_three :
    (parameterFrame modelId dev opcode payload).drop 3 =
      modelId ++ opcode :: (payload ++ [checksumByte payload, sysexEnd]) := by
  simp [parameterFrame]

/-- The frame from the opcode on. -/
theorem parameterFrame_drop_modelId :
    (parameterFrame modelId dev opcode payload).drop (3 + modelId.length) =
      opcode :: (payload ++ [checksumByte payload, sysexEnd]) := by
  rw [← List.drop_drop, parameterFrame_drop_three, List.drop_left]

/-- The frame from the payload on. -/
theorem parameterFrame_drop_opcode :
    (parameterFrame modelId dev opcode payload).drop (4 + modelId.length) =
      payload ++ [checksumByte payload, sysexEnd] := by
  rw [show 4 + modelId.length = 3 + modelId.length + 1 by omega, ← List.drop_drop, parameterFrame_drop_modelId,
    List.drop_one, List.tail_cons]

/-- The model id stands after the device id. -/
theorem parameterFrame_take_modelId :
    ((parameterFrame modelId dev opcode payload).drop 3).take modelId.length = modelId := by
  rw [parameterFrame_drop_three, List.take_left]

/-- The opcode stands after the model id. -/
theorem parameterFrame_getElem?_opcode :
    (parameterFrame modelId dev opcode payload)[3 + modelId.length]? = some opcode := by
  rw [← List.head?_drop, parameterFrame_drop_modelId, List.head?_cons]

/-- The payload stands after the opcode. -/
theorem parameterFrame_take_payload {n : Nat} (hn : payload.length = n) :
    ((parameterFrame modelId dev opcode payload).drop (4 + modelId.length)).take n = payload := by
  rw [parameterFrame_drop_opcode, List.take_left' hn]

/-- The checksum of the payload stands immediately before the terminator (30_encoding.md R54). -/
theorem parameterFrame_getElem?_checksum :
    (parameterFrame modelId dev opcode payload)[(parameterFrame modelId dev opcode payload).length - 2]? =
      some (checksumByte payload) := by
  have hoffset : 6 + modelId.length + payload.length - 2 = 4 + modelId.length + payload.length := by omega
  rw [parameterFrame_length, hoffset, ← List.head?_drop, ← List.drop_drop, parameterFrame_drop_opcode,
    List.drop_left, List.head?_cons]

end

section
variable {modelId : Bytes} {dev : BitVec 7} {opcode : Byte} {a : Word} {rest : Bytes}

/-- The layout of a frame whose payload starts with an address (30_encoding.md R47, R48). -/
theorem parameterFrame_packAddress_append :
    parameterFrame modelId dev opcode (packAddress a ++ rest) =
      [sysexStart, frameHeader, dev.setWidth 8] ++ modelId ++ [opcode] ++ sevenBitGroups a ++ rest
        ++ [checksumByte (packAddress a ++ rest), sysexEnd] := by
  rw [parameterFrame, packAddress_eq_sevenBitGroups, ← List.append_assoc]

/-- The length of a frame whose payload starts with an address (42_messagebuilder.md R71, R72). -/
theorem parameterFrame_packAddress_append_length :
    (parameterFrame modelId dev opcode (packAddress a ++ rest)).length = 10 + modelId.length + rest.length := by
  rw [parameterFrame_length, List.length_append, packAddress_length]
  omega

/-- The address comes out of the payload's first four bytes (42_messagebuilder.md R74). -/
theorem parameterFrame_unpack_address :
    unpackBase128 (((parameterFrame modelId dev opcode (packAddress a ++ rest)).drop (4 + modelId.length)).take 4) =
      a.toNat % 2 ^ 28 := by
  rw [parameterFrame_drop_opcode, List.append_assoc, List.take_left' (packAddress_length a),
    unpackBase128_packAddress]

/-- What follows the address in the payload stands after it (42_messagebuilder.md R74). -/
theorem parameterFrame_take_rest {n : Nat} (hn : rest.length = n) :
    ((parameterFrame modelId dev opcode (packAddress a ++ rest)).drop (8 + modelId.length)).take n = rest := by
  rw [show 8 + modelId.length = 4 + modelId.length + 4 by omega, ← List.drop_drop, parameterFrame_drop_opcode,
    List.append_assoc, List.drop_left' (packAddress_length a), List.take_left' hn]

end

end Sys2Proof.Machine
end

section
/-! The MessageBuilder commands (42_messagebuilder.md R70 to R74). -/

namespace Sys2Proof

open Machine

/-! ### What each command does, case by case -/

/-- BUILDRQ1 with a resolved device id (42_messagebuilder.md R71). -/
theorem exec_buildRq1_resolved (dev : BitVec 7) (a b : Word) (s : State) :
    exec (.buildRq1 true dev a b) s =
      .next { s with resp := { Response.noValue with
        status := some 0x0
        frame := some (parameterFrame s.cfg.modelId dev opcodeRq1 (packAddress a ++ packAddress b))
        wire := some (pad4 (parameterFrame s.cfg.modelId dev opcodeRq1 (packAddress a ++ packAddress b))) } } :=
  exec_pure (by simp) s

/-- BUILDDT1 with a resolved device id (42_messagebuilder.md R72). -/
theorem exec_buildDt1_resolved (dev : BitVec 7) (a : Word) (bytes : Bytes) (s : State) :
    exec (.buildDt1 true dev a bytes) s =
      .next { s with resp := { Response.noValue with
        status := some 0x0
        frame := some (parameterFrame s.cfg.modelId dev opcodeDt1 (packAddress a ++ bytes))
        wire := some (pad4 (parameterFrame s.cfg.modelId dev opcodeDt1 (packAddress a ++ bytes))) } } :=
  exec_pure (by simp) s

/-! ### The obligations -/

/-- Settles O21: the payload of the frame is the packed address and the packed size. -/
theorem buildRq1ComposesTheRequest : Obligations.BuildRq1ComposesTheRequest := by
  refine ⟨fun c hr ho => decode_of_fields (op := .buildRq1) hr ho, fun dev a b s => ?_,
    fun dev a b s => exec_pure (by simp) s⟩
  refine ⟨checksumByte (packAddress a ++ packAddress b), _, _, exec_buildRq1_resolved dev a b s, ?layout, ?checksum,
    paddedTo4_pad4 _, ?length⟩
  case layout =>
    rw [← packAddress_eq_sevenBitGroups b]
    exact parameterFrame_packAddress_append
  case checksum =>
    rw [← packAddress_eq_sevenBitGroups, ← packAddress_eq_sevenBitGroups]
    exact isChecksumOf_checksumByte _
  case length =>
    rw [parameterFrame_packAddress_append_length, packAddress_length]
    omega

/-- Settles O22: the payload of the frame is the packed address and the data as it is. -/
theorem buildDt1ComposesTheDataSet : Obligations.BuildDt1ComposesTheDataSet := by
  refine ⟨fun c hr ho => decode_of_fields (op := .buildDt1) hr ho, fun dev a bytes s => ?_,
    fun dev a bytes s => exec_pure (by simp) s⟩
  refine ⟨checksumByte (packAddress a ++ bytes), _, _, exec_buildDt1_resolved dev a bytes s,
    parameterFrame_packAddress_append, ?checksum, paddedTo4_pad4 _, parameterFrame_packAddress_append_length⟩
  rw [← packAddress_eq_sevenBitGroups]
  exact isChecksumOf_checksumByte _

/-- Settles O23: the fixed frame has six bytes, so its padding is two. -/
theorem buildIdReqComposesTheInquiry : Obligations.BuildIdReqComposesTheInquiry :=
  ⟨fun c hr ho => decode_of_fields (op := .buildIdReq) hr ho, exec_pure (by simp)⟩

/-- Settles O24: each builder left a parameter frame, whose parts stand at the offsets of R74. -/
theorem builtFramesRecoverTheirOperands : Obligations.BuiltFramesRecoverTheirOperands := by
  constructor
  · intro dev a bytes s t f hexec hf
    obtain rfl := Host.Outcome.next.inj ((exec_buildDt1_resolved dev a bytes s).symm.trans hexec)
    obtain rfl := Option.some.inj hf
    have hpayload : (packAddress a ++ bytes).length = 4 + bytes.length := by simp
    refine ⟨parameterFrame_getElem?_two, parameterFrame_take_modelId, parameterFrame_getElem?_opcode,
      parameterFrame_unpack_address, parameterFrame_take_rest rfl, ?length, _, parameterFrame_getElem?_checksum,
      ?checksum⟩
    case length =>
      rw [parameterFrame_packAddress_append_length]
      omega
    case checksum => rw [parameterFrame_take_payload hpayload, checksumByte_toNat]
  · intro dev a b s t f hexec hf
    obtain rfl := Host.Outcome.next.inj ((exec_buildRq1_resolved dev a b s).symm.trans hexec)
    obtain rfl := Option.some.inj hf
    have hpayload : (packAddress a ++ packAddress b).length = 8 := by simp
    refine ⟨parameterFrame_getElem?_two, parameterFrame_take_modelId, parameterFrame_getElem?_opcode,
      parameterFrame_unpack_address, ?size, ?length, _, parameterFrame_getElem?_checksum, ?checksum⟩
    case size => rw [parameterFrame_take_rest (packAddress_length b), unpackBase128_packAddress]
    case length =>
      rw [parameterFrame_packAddress_append_length, packAddress_length]
      omega
    case checksum => rw [parameterFrame_take_payload hpayload, checksumByte_toNat]

end Sys2Proof
end

section
/-! Which fragments FEED takes, what it does with a fragment it takes, case by case, and what DECODEID's function does
not read (43_frameassembler.md R77 to R87). -/

namespace Sys2Proof.Machine

/-- An empty fragment is never taken (43_frameassembler.md R77). -/
theorem not_takenInto_nil (s : State) (buf : Bytes) : ¬ TakenInto s [] buf := by
  rintro (⟨-, h, -⟩ | ⟨-, -, h, -⟩ | ⟨-, h, -⟩) <;> simp at h

/-- In `Idle` only a fragment that starts with `0xF0` is taken (43_frameassembler.md R78, R79). -/
theorem head?_of_takenInto_idle {s : State} {fragment buf : Bytes} (hidle : s.asm = .idle)
    (h : TakenInto s fragment buf) : fragment.head? = some 0xF0 := by
  obtain ⟨-, hhead, -⟩ | ⟨hcoll, -⟩ | ⟨hcoll, -⟩ := h
  · exact hhead
  · exact absurd (hidle.symm.trans hcoll) (by decide)
  · exact absurd (hidle.symm.trans hcoll) (by decide)

section
variable {s : State} {fragment buf : Bytes}

/-- Past the cap there is no step, whatever the fragment holds (43_frameassembler.md R85). -/
theorem takeFragment_of_not_withinCap (hcap : ¬ WithinCap s.cfg buf) :
    takeFragment fragment buf s = .refused .bufferCap := by
  obtain ⟨hrefused, -⟩ | ⟨-, h, -⟩ | ⟨-, h, -⟩ | ⟨-, h, -⟩ := takeFragment_cases fragment buf s
  · exact hrefused
  all_goals exact absurd h hcap

/-- Within the cap and without `0xF7` the buffer is kept (43_frameassembler.md R85). -/
theorem takeFragment_of_not_mem_end (hcap : WithinCap s.cfg buf) (hend : (0xF7 : Byte) ∉ fragment) :
    takeFragment fragment buf s =
      .next { s with asm := .collecting, buf := buf,
                     resp := { Response.noValue with status := some 0x0, fv := some false } } := by
  obtain ⟨-, h⟩ | ⟨hkept, -⟩ | ⟨-, -, h, -⟩ | ⟨-, -, h, -⟩ := takeFragment_cases fragment buf s
  · exact absurd hcap h
  · exact hkept
  all_goals exact absurd h hend

/-- A terminated fragment whose trimmed buffer is an accepted frame emits it (43_frameassembler.md R83). -/
theorem takeFragment_of_accepted (hcap : WithinCap s.cfg buf) (hend : (0xF7 : Byte) ∈ fragment)
    (hok : AcceptedFrame s.cfg (trimPadding buf)) :
    takeFragment fragment buf s =
      .next { s with asm := .idle, buf := [],
                     resp := { Response.noValue with
                       status := some 0x0, frame := some (trimPadding buf), fv := some true } } := by
  obtain ⟨-, h⟩ | ⟨-, -, h⟩ | ⟨hemitted, -⟩ | ⟨-, -, -, h⟩ := takeFragment_cases fragment buf s
  · exact absurd hcap h
  · exact absurd hend h
  · exact hemitted
  · exact absurd hok h

/-- A terminated fragment whose trimmed buffer is no accepted frame drops it with FRAME_FORMAT_ERROR
(43_frameassembler.md R84). -/
theorem takeFragment_of_not_accepted (hcap : WithinCap s.cfg buf) (hend : (0xF7 : Byte) ∈ fragment)
    (hbad : ¬ AcceptedFrame s.cfg (trimPadding buf)) :
    takeFragment fragment buf s =
      .next { s with asm := .idle, buf := [],
                     resp := { Response.noValue with status := some 0x1, fv := some false } } := by
  obtain ⟨-, h⟩ | ⟨-, -, h⟩ | ⟨-, -, -, h⟩ | ⟨hdropped, -⟩ := takeFragment_cases fragment buf s
  · exact absurd hcap h
  · exact absurd hend h
  · exact absurd h hbad
  · exact hdropped

end

/-- The candidate of emit processing is the one sequence that the buffer extends by padding and that does not itself
end in padding (43_frameassembler.md R82). -/
theorem trimPadding_eq_of_append_replicate {candidate : Bytes} (n : Nat) (h : candidate.getLast? ≠ some 0x00) :
    trimPadding (candidate ++ List.replicate n 0x00) = candidate := by
  rw [trimPadding_append_replicate, trimPadding_eq_self h]

/-- A buffer that is longer than a bounded cap is what R85 of 43_frameassembler.md refuses. -/
theorem not_withinCap_of_lt {cfg : Config} {buf : Bytes} {cap : Nat} (hcap : cfg.bufCap = some cap)
    (hlen : cap < buf.length) : ¬ WithinCap cfg buf :=
  fun hfits => Nat.not_le.mpr hlen (hfits cap hcap)

/-- `decodeIdentityReply` finds no record in anything but a 15-byte reply (43_frameassembler.md R87). -/
theorem decodeIdentityReply_eq_none {bytes : Bytes}
    (h : ¬ ∃ dev mfr f0 f1 m0 m1 v0 v1 v2 v3 : Byte,
      bytes = [0xF0, 0x7E, dev, 0x06, 0x02, mfr, f0, f1, m0, m1, v0, v1, v2, v3, 0xF7]) :
    decodeIdentityReply bytes = none :=
  Option.eq_none_iff_forall_ne_some.mpr fun _ hr => h ⟨_, _, _, _, _, _, _, _, _, _, decodeIdentityReply_eq_some hr⟩

end Sys2Proof.Machine
end

section
/-! The FrameAssembler commands (43_frameassembler.md R77 to R88). -/

namespace Sys2Proof

open Machine

/-! ### What each command does, case by case -/

/-- FEED drops a fragment that is not taken: nothing but the response changes (43_frameassembler.md R77, R78). -/
theorem exec_feed_of_not_taken {s : State} {bytes : Bytes} (h : ∀ buf, ¬ TakenInto s bytes buf) :
    exec (.feed bytes) s =
      .next { s with resp := { Response.noValue with status := some 0x0, fv := some false } } := by
  obtain ⟨hdrop, -⟩ | ⟨buf, htaken, -⟩ := execFeed_cases bytes s
  · exact hdrop
  · exact absurd htaken (h buf)

/-- FEED of a fragment that is taken (43_frameassembler.md R79, R80). -/
theorem exec_feed_of_taken {s : State} {bytes buf : Bytes} (h : TakenInto s bytes buf) :
    exec (.feed bytes) s = takeFragment bytes buf s :=
  execFeed_taken h

/-! ### The obligations -/

/-- Settles O27: an empty fragment is not taken, so it is dropped. -/
theorem feedOfEmptyFragmentChangesNothing : Obligations.FeedOfEmptyFragmentChangesNothing :=
  ⟨fun _ hr ho => decode_of_fields (op := .feed) hr ho, fun s => exec_feed_of_not_taken (not_takenInto_nil s)⟩

/-- Settles O28: in `Idle` a fragment that is taken starts with `0xF0`. -/
theorem feedInIdleDropsUnstartedFragments : Obligations.FeedInIdleDropsUnstartedFragments :=
  fun _ _ hidle _ hhead => exec_feed_of_not_taken fun _ htaken => hhead (head?_of_takenInto_idle hidle htaken)

/-- Settles O29: the cap decides first, and within it a fragment without `0xF7` triggers nothing. -/
theorem feedKeepsUnterminatedFragments : Obligations.FeedKeepsUnterminatedFragments := by
  refine ⟨fun s bytes buf htaken hend hfits => ?_, fun s bytes buf cap htaken hcap hlen => ?_⟩
  · rw [exec_feed_of_taken htaken, takeFragment_of_not_mem_end hfits hend]
  · rw [exec_feed_of_taken htaken, takeFragment_of_not_withinCap (not_withinCap_of_lt hcap hlen)]

/-- Settles O30: the candidate is the trimmed buffer, and acceptance of it decides between the two ends. -/
theorem feedEmitsOrDropsTheTrimmedBuffer : Obligations.FeedEmitsOrDropsTheTrimmedBuffer := by
  intro s bytes buf candidate n htaken hend hfits hbuf hlast
  have htrim : trimPadding buf = candidate := hbuf ▸ trimPadding_eq_of_append_replicate n hlast
  rw [exec_feed_of_taken htaken, ← htrim]
  exact ⟨takeFragment_of_accepted hfits hend, takeFragment_of_not_accepted hfits hend⟩

/-- Settles O34: the function of R87 finds a record in a 15-byte reply and in nothing else. -/
theorem decodeIdReadsIdentityReplies : Obligations.DecodeIdReadsIdentityReplies := by
  refine ⟨fun _ hr ho => decode_of_fields (op := .decodeId) hr ho,
    fun dev mfr f0 f1 m0 m1 v0 v1 v2 v3 s => exec_pure (by simp) s, fun bytes s hother => ?_⟩
  rw [exec_pure (by simp), pureResponse, decodeIdentityReply_eq_none hother]

end Sys2Proof
end

section
/-! Which statuses the commands write (60_exceptions.md R91, R97). -/

namespace Sys2Proof

open Machine

/-- The block produces every status of 60_exceptions.md R91 but DEVICE_NOT_FOUND. -/
theorem producedStatus_code_iff (st : Status) : ProducedStatus st.code ↔ st ≠ .deviceNotFound := by
  cases st <;> simp [ProducedStatus, Status.code]

/-- A response with a status that the block produces: what a command that is not refused leaves behind. -/
def WritesProducedStatus (r : Response) : Prop :=
  ∃ code, r.status = some code ∧ ProducedStatus code

/-- A response that holds the code of a status other than DEVICE_NOT_FOUND writes a produced status. -/
theorem WritesProducedStatus.of_status {r : Response} (st : Status) (h : r.status = some st.code)
    (hst : st ≠ .deviceNotFound := by decide) : WritesProducedStatus r :=
  ⟨st.code, h, (producedStatus_code_iff st).mpr hst⟩

/-- A command other than FEED writes OK, or the one error status of its own rule (60_exceptions.md R92, R94, R95). -/
theorem pureResponse_writesProducedStatus (cfg : Config) {i : Instr} (h : ∀ bytes, i ≠ .feed bytes) :
    WritesProducedStatus (pureResponse cfg i) := by
  cases i with
  | feed bytes => exact absurd rfl (h bytes)
  | pack7 | nibSplit | checksum | buildIdReq => exact .of_status .ok rfl
  | packRuns | unpack128 | encColor =>
    rw [pureResponse]
    split
    · exact .of_status .ok rfl
    · exact .of_status .illegalCommand rfl
  | addrUc =>
    rw [pureResponse]
    split
    · exact .of_status .ok rfl
    · exact .of_status .indexOutOfRange rfl
  | buildRq1 dv | buildDt1 dv =>
    cases dv
    case true => exact .of_status .ok rfl
    case false => exact .of_status .identityNotEstablished rfl
  | decodeId =>
    rw [pureResponse]
    split <;> exact .of_status .ok rfl

/-- FEED of a fragment it takes writes OK, or FRAME_FORMAT_ERROR with the frame it drops (43_frameassembler.md R83 to
R85). -/
theorem takeFragment_writesProducedStatus {fragment buf : Bytes} {s t : State}
    (h : takeFragment fragment buf s = .next t) : WritesProducedStatus t.resp := by
  obtain ⟨hrefused, -⟩ | ⟨hkept, -⟩ | ⟨hemitted, -⟩ | ⟨hdropped, -⟩ := takeFragment_cases fragment buf s
  · cases hrefused.symm.trans h
  · cases hkept.symm.trans h
    exact .of_status .ok rfl
  · cases hemitted.symm.trans h
    exact .of_status .ok rfl
  · cases hdropped.symm.trans h
    exact .of_status .frameFormatError rfl

/-- FEED writes OK or FRAME_FORMAT_ERROR (43_frameassembler.md R77 to R85). -/
theorem execFeed_writesProducedStatus {bytes : Bytes} {s t : State} (h : execFeed bytes s = .next t) :
    WritesProducedStatus t.resp := by
  obtain ⟨hdrop, -⟩ | ⟨buf, -, htake⟩ := execFeed_cases bytes s
  · cases hdrop.symm.trans h
    exact .of_status .ok rfl
  · exact takeFragment_writesProducedStatus (htake.symm.trans h)

/-- Every instruction that is not refused writes a produced status. -/
theorem exec_writesProducedStatus {i : Instr} {s t : State} (h : exec i s = .next t) :
    WritesProducedStatus t.resp := by
  by_cases hfeed : ∃ bytes, i = .feed bytes
  · obtain ⟨bytes, rfl⟩ := hfeed
    exact execFeed_writesProducedStatus h
  · have hpure : ∀ bytes, i ≠ .feed bytes := not_exists.mp hfeed
    cases (exec_pure hpure s).symm.trans h
    exact pureResponse_writesProducedStatus s.cfg hpure

/-- Settles O43: of the three things a command can do, refusing has no next state, a command word that names no command
writes ILLEGAL_COMMAND, and an instruction writes a produced status. -/
theorem everyCommandWritesAProducedStatus : Obligations.EveryCommandWritesAProducedStatus := by
  intro c s t h
  obtain ⟨hrefused, -⟩ | ⟨hillegal, -⟩ | ⟨i, hexec, -⟩ := runCommand_cases c s
  · cases hrefused.symm.trans h
  · cases hillegal.symm.trans h
    exact WritesProducedStatus.of_status .illegalCommand rfl
  · exact exec_writesProducedStatus (hexec.symm.trans h)

end Sys2Proof
end

section
/-! The encoder against the decoder (30_encoding.md R40, R42), and the written form of a command (R52). -/

namespace Sys2Proof

open Machine

/-! ### The encoder's command, field by field -/

@[simp] theorem encode_cw (i : Instr) : (encode i).cw = encodeWord i := by
  cases i <;> rfl

@[simp] theorem encode_bytes (i : Instr) : (encode i).bytes = i.byteOperand := by
  cases i <;> rfl

/-- The encoder leaves `RSVD` 0 (30_encoding.md R41). -/
@[simp] theorem fieldRsvd_encodeWord (i : Instr) : fieldRsvd (encodeWord i) = 0 := by
  cases i <;> exact fieldRsvd_packWord _ _ _ _ _ _

/-- The encoder writes the opcode of its command (30_encoding.md R42). -/
@[simp] theorem fieldOp_encodeWord (i : Instr) : fieldOp (encodeWord i) = i.op.code := by
  cases i <;> exact fieldOp_packWord _ _ _ _ _ _

/-- The encoder writes every field and operand that the command's rule names (10_state.md R21). -/
@[simp] theorem withOperands_encode (i : Instr) : i.op.withOperands (encode i) = i := by
  cases i with
  | packRuns | buildRq1 | buildDt1 => simp [Instr.op, Op.withOperands, encode, encodeWord]
  | pack7 | nibSplit | unpack128 | checksum | encColor | addrUc | buildIdReq | feed | decodeId => rfl

/-- The encoder's command decodes to the instruction it was made from. -/
theorem decode_encode (i : Instr) : decode (encode i) = .instr i := by
  rw [decode_of_fields (op := i.op) (by simp) (by simp), withOperands_encode]

/-! ### The part of a command that its rule uses -/

/-- What a command of mnemonic `op` uses of `c`, and zeros for the rest of it (30_encoding.md R40, 10_state.md R21). -/
def usedPart (op : Op) (c : Command) : Command where
  cw := c.cw &&& usedBits op
  a := if usesA op then c.a else 0
  b := if usesB op then c.b else 0
  bytes := if usesBytes op then c.bytes else []

/-- Under the mask of PACKRUNS the device id is gone (30_encoding.md R40). -/
theorem and_packRunsMask_eq_packWord (cw : Word) :
    cw &&& 0xFF00FFFF#32 = packWord (fieldRsvd cw) false 0 (fieldW cw) (fieldG cw) (fieldOp cw) := by
  refine BitVec.eq_of_getLsbD_eq fun k hk => ?_
  rw [BitVec.getLsbD_and, packWord_getLsbD, fieldRsvd, fieldW, fieldG, fieldOp]
  interval_cases k <;> simp

/-- Under the mask of BUILDRQ1 and BUILDDT1 the group fields are gone (30_encoding.md R40). -/
theorem and_builderMask_eq_packWord (cw : Word) :
    cw &&& 0xFFFF00FF#32 = packWord (fieldRsvd cw) (fieldDv cw) (fieldDev cw) 0 0 (fieldOp cw) := by
  refine BitVec.eq_of_getLsbD_eq fun k hk => ?_
  rw [BitVec.getLsbD_and, packWord_getLsbD, fieldRsvd, fieldDv, fieldDev, fieldOp]
  interval_cases k <;> simp

/-- Every command uses `RSVD` (30_encoding.md R41). -/
@[simp] theorem fieldRsvd_and_usedBits (cw : Word) (op : Op) : fieldRsvd (cw &&& usedBits op) = fieldRsvd cw := by
  cases op <;>
    simp [usedBits, and_opcodeMask_eq_packWord, and_packRunsMask_eq_packWord, and_builderMask_eq_packWord]

/-- Every command uses `OP` (30_encoding.md R40). -/
@[simp] theorem fieldOp_and_usedBits (cw : Word) (op : Op) : fieldOp (cw &&& usedBits op) = fieldOp cw := by
  cases op <;>
    simp [usedBits, and_opcodeMask_eq_packWord, and_packRunsMask_eq_packWord, and_builderMask_eq_packWord]

/-- The operands of a command are read from what its rule uses. -/
theorem withOperands_usedPart (op : Op) (c : Command) : op.withOperands (usedPart op c) = op.withOperands c := by
  cases op with
  | packRuns => simp [Op.withOperands, usedPart, usedBits, usesA, and_packRunsMask_eq_packWord]
  | buildRq1 => simp [Op.withOperands, usedPart, usedBits, usesA, usesB, and_builderMask_eq_packWord]
  | buildDt1 => simp [Op.withOperands, usedPart, usedBits, usesA, usesBytes, and_builderMask_eq_packWord]
  | pack7 | nibSplit | unpack128 | checksum | encColor | addrUc | buildIdReq | feed | decodeId => rfl

/-- The encoder's word is the used part of any word that decodes to the command. -/
theorem encodeWord_withOperands {op : Op} {c : Command} (hr : fieldRsvd c.cw = 0) (ho : fieldOp c.cw = op.code) :
    encodeWord (op.withOperands c) = c.cw &&& usedBits op := by
  cases op with
  | packRuns =>
    have hmask := and_packRunsMask_eq_packWord c.cw
    rw [hr, ho] at hmask
    exact hmask.symm
  | buildRq1 | buildDt1 =>
    have hmask := and_builderMask_eq_packWord c.cw
    rw [hr, ho] at hmask
    exact hmask.symm
  | pack7 | nibSplit | unpack128 | checksum | encColor | addrUc | buildIdReq | feed | decodeId =>
    have hmask := and_opcodeMask_eq_packWord c.cw
    rw [hr, ho] at hmask
    exact hmask.symm

/-- The encoder's command is the used part of any command with the same operands. -/
theorem encode_withOperands {op : Op} {c : Command} (hr : fieldRsvd c.cw = 0) (ho : fieldOp c.cw = op.code) :
    encode (op.withOperands c) = usedPart op c := by
  rw [usedPart, ← encodeWord_withOperands hr ho]
  cases op <;> rfl

/-- The encoder makes the used part of any command that decodes to the instruction. -/
theorem encode_eq_usedPart {c : Command} {i : Instr} (h : decode c = .instr i) : encode i = usedPart i.op c := by
  obtain ⟨hr, ho, hi⟩ := fields_of_decode h
  exact (congrArg encode hi).trans (encode_withOperands hr ho)

/-- A command whose used part is the encoder's command decodes to the instruction. -/
theorem decode_of_usedPart {d : Command} {i : Instr} (h : usedPart i.op d = encode i) : decode d = .instr i := by
  have hcw : d.cw &&& usedBits i.op = encodeWord i := (congrArg Command.cw h).trans (encode_cw i)
  have hr : fieldRsvd d.cw = 0 := by rw [← fieldRsvd_and_usedBits d.cw i.op, hcw, fieldRsvd_encodeWord]
  have ho : fieldOp d.cw = i.op.code := by rw [← fieldOp_and_usedBits d.cw i.op, hcw, fieldOp_encodeWord]
  rw [decode_of_fields hr ho, ← withOperands_usedPart, h, withOperands_encode]

/-! ### The written form -/

/-- A builder is written either with its device id or as `NODEV`, which is `DEV = 0` (30_encoding.md R52). -/
def Writable (i : Instr) : Prop :=
  (∀ dev a b, i = .buildRq1 false dev a b → dev = 0) ∧ ∀ dev a bytes, i = .buildDt1 false dev a bytes → dev = 0

/-- The reader accepts the operands of a written command: each is taken, fits, and is written once. -/
theorem ofInstr_operands_accepted (i : Instr) :
    ((AsmLine.ofInstr i).operands.all (fun o => takesOperand (AsmLine.ofInstr i).op o && o.fits)
      && slotsDistinct (AsmLine.ofInstr i).operands) = true := by
  have word (v : Word) : v.toNat < 4294967296 := v.isLt
  have nibble (v : BitVec 4) : v.toNat < 16 := v.isLt
  have device (v : BitVec 7) : v.toNat < 128 := v.isLt
  cases i with
  | buildRq1 dv | buildDt1 dv =>
    cases dv <;>
      simp [AsmLine.ofInstr, Instr.op, takesOperand, AsmOperand.fits, slotsDistinct, AsmOperand.slot, word, device]
  | pack7 | nibSplit | packRuns | unpack128 | checksum | encColor | addrUc | buildIdReq | feed | decodeId =>
    simp [AsmLine.ofInstr, Instr.op, takesOperand, AsmOperand.fits, slotsDistinct, AsmOperand.slot, word, nibble]

/-- The line that writes a command stands for the encoder's command. -/
theorem toCommand_ofInstr {i : Instr} (h : Writable i) : (AsmLine.ofInstr i).toCommand = some (encode i) := by
  obtain ⟨hrq1, hdt1⟩ := h
  rw [AsmLine.toCommand, if_pos (ofInstr_operands_accepted i)]
  cases i with
  | buildRq1 dv dev a b =>
    cases dv with
    | true => simp [AsmLine.ofInstr, AsmFields.set, AsmFields.zero, encode, encodeWord, Instr.op]
    | false =>
      obtain rfl : dev = 0 := hrq1 dev a b rfl
      simp [AsmLine.ofInstr, AsmFields.set, AsmFields.zero, encode, encodeWord, Instr.op]
  | buildDt1 dv dev a bytes =>
    cases dv with
    | true => simp [AsmLine.ofInstr, AsmFields.set, AsmFields.zero, encode, encodeWord, Instr.op]
    | false =>
      obtain rfl : dev = 0 := hdt1 dev a bytes rfl
      simp [AsmLine.ofInstr, AsmFields.set, AsmFields.zero, encode, encodeWord, Instr.op]
  | pack7 | nibSplit | packRuns | unpack128 | checksum | encColor | addrUc | buildIdReq | feed | decodeId =>
    simp [AsmLine.ofInstr, AsmFields.set, AsmFields.zero, encode, encodeWord, Instr.op]

/-! ### The obligations -/

/-- Settles O1: the encoder's word has the command's opcode and no reserved bit, and holds every operand. -/
theorem decodeInvertsEncode : Obligations.DecodeInvertsEncode :=
  decode_encode

/-- Settles O2: the encoder makes the used part of the command, field by field. -/
theorem encodeInvertsDecodeOnUsedFields : Obligations.EncodeInvertsDecodeOnUsedFields := by
  intro c i h
  rw [encode_eq_usedPart h]
  exact ⟨rfl, rfl, rfl, rfl⟩

/-- Settles O3: the used part of `d` is that of `c`, which is the encoder's command. -/
theorem unusedFieldsAreIgnored : Obligations.UnusedFieldsAreIgnored := by
  intro c d i h hcw ha hb hbytes
  have hused : usedPart i.op d = usedPart i.op c := by
    simp only [usedPart, Command.mk.injEq]
    exact ⟨hcw, if_ctx_congr .rfl ha fun _ => rfl, if_ctx_congr .rfl hb fun _ => rfl,
      if_ctx_congr .rfl hbytes fun _ => rfl⟩
  exact decode_of_usedPart (hused.trans (encode_eq_usedPart h).symm)

/-- Settles O5: the eight command words, decoded. -/
theorem specCommandWordsDecode : Obligations.SpecCommandWordsDecode := by
  unfold Obligations.SpecCommandWordsDecode
  decide

/-- Settles O49: the line stands for the encoder's command, which decodes back. -/
theorem writtenLinesAssembleToTheirCommands : Obligations.WrittenLinesAssembleToTheirCommands :=
  fun i hrq1 hdt1 => ⟨encode i, toCommand_ofInstr ⟨hrq1, hdt1⟩, decode_encode i⟩

end Sys2Proof
end

section
/-! What an instruction that answers a next state leaves behind: the response of a command other than FEED, and the four
ways FEED ends (60_exceptions.md R90 to R95, 43_frameassembler.md R77 to R85). -/

namespace Sys2Proof.Machine

/-! ### The status of a command other than FEED -/

/-- The status a command other than FEED ends with: the checks of its own rule (60_exceptions.md R92, R94, R95). -/
def commandStatus : Instr → Status
  | .addrUc b => if 4 < b.toNat then .indexOutOfRange else .ok
  | .buildRq1 dv _ _ _ => if dv then .ok else .identityNotEstablished
  | .buildDt1 dv _ _ _ => if dv then .ok else .identityNotEstablished
  | i => if i.wellFormed then .ok else .illegalCommand

theorem Status.code_injective : Function.Injective Status.code := by
  intro st st'
  cases st <;> cases st' <;> decide

/-- INDEX_OUT_OF_RANGE is ADDRUC's (60_exceptions.md R94). -/
theorem commandStatus_eq_indexOutOfRange_iff (i : Instr) :
    commandStatus i = .indexOutOfRange ↔ ∃ b : Word, i = .addrUc b ∧ 4 < b.toNat := by
  cases i with
  | addrUc b => simp [commandStatus]
  | buildRq1 dv | buildDt1 dv => cases dv <;> simp [commandStatus]
  | packRuns | unpack128 | encColor => simp [commandStatus, ite_eq_iff]
  | pack7 | nibSplit | checksum | buildIdReq | feed | decodeId => simp [commandStatus, Instr.wellFormed]

/-- IDENTITY_NOT_ESTABLISHED is that of the builders with a device id (60_exceptions.md R95). -/
theorem commandStatus_eq_identityNotEstablished_iff (i : Instr) :
    commandStatus i = .identityNotEstablished ↔
      (∃ dev a b, i = .buildRq1 false dev a b) ∨ ∃ dev a bytes, i = .buildDt1 false dev a bytes := by
  cases i with
  | addrUc b => simp [commandStatus, ite_eq_iff]
  | buildRq1 dv | buildDt1 dv => cases dv <;> simp [commandStatus]
  | packRuns | unpack128 | encColor => simp [commandStatus, ite_eq_iff]
  | pack7 | nibSplit | checksum | buildIdReq | feed | decodeId => simp [commandStatus, Instr.wellFormed]

/-- ILLEGAL_COMMAND is that of the commands with a range check (60_exceptions.md R92). -/
theorem commandStatus_eq_illegalCommand_iff (i : Instr) :
    commandStatus i = .illegalCommand ↔ i.wellFormed = false := by
  cases i with
  | addrUc b => simp [commandStatus, Instr.wellFormed, ite_eq_iff]
  | buildRq1 dv | buildDt1 dv => cases dv <;> simp [commandStatus, Instr.wellFormed]
  | packRuns | unpack128 | encColor => simp [commandStatus]
  | pack7 | nibSplit | checksum | buildIdReq | feed | decodeId => simp [commandStatus, Instr.wellFormed]

/-! ### The frames the builders compose -/

/-- The frame a builder composes (42_messagebuilder.md R71 to R73). -/
inductive Composes (cfg : Config) : Instr → Bytes → Prop
  | request (dev : BitVec 7) (a b : Word) :
    Composes cfg (.buildRq1 true dev a b)
      (parameterFrame cfg.modelId dev opcodeRq1 (packAddress a ++ packAddress b))
  | dataSet (dev : BitVec 7) (a : Word) (bytes : Bytes) :
    Composes cfg (.buildDt1 true dev a bytes) (parameterFrame cfg.modelId dev opcodeDt1 (packAddress a ++ bytes))
  | inquiry : Composes cfg .buildIdReq identityRequest

/-- The bytes of a parameter frame between its first and its last (30_encoding.md R46). -/
def parameterInterior (modelId : Bytes) (dev : BitVec 7) (opcode : Byte) (payload : Bytes) : Bytes :=
  frameHeader :: dev.setWidth 8 :: (modelId ++ opcode :: (payload ++ [checksumByte payload]))

theorem parameterFrame_eq (modelId : Bytes) (dev : BitVec 7) (opcode : Byte) (payload : Bytes) :
    parameterFrame modelId dev opcode payload = 0xF0 :: (parameterInterior modelId dev opcode payload ++ [0xF7]) := by
  simp [parameterFrame, parameterInterior, sysexStart, sysexEnd]

/-- A 7-bit model id, opcode and payload make a 7-bit interior: the rest is 7-bit by itself (20_memory.md R32). -/
theorem parameterInterior_sevenBit {modelId : Bytes} {dev : BitVec 7} {opcode : Byte} {payload : Bytes}
    (hid : ∀ x ∈ modelId, x.toNat ≤ 0x7F) (hop : opcode.toNat ≤ 0x7F) (hpayload : ∀ x ∈ payload, x.toNat ≤ 0x7F) :
    ∀ x ∈ parameterInterior modelId dev opcode payload, x.toNat ≤ 0x7F := by
  have hdev : (dev.setWidth 8).toNat ≤ 0x7F := by
    rw [BitVec.toNat_setWidth]
    omega
  have hck : (checksumByte payload).toNat ≤ 0x7F := by
    rw [checksumByte_toNat]
    exact Nat.le_of_lt_succ (checksumOf_lt payload)
  simp only [parameterInterior, List.forall_mem_cons, List.forall_mem_append]
  exact ⟨by decide, hdev, hid, hop, hpayload, hck, by simp⟩

/-- The model id of a well-formed configuration is 7-bit (10_state.md R20). -/
theorem modelId_sevenBit_of_wellFormed {cfg : Config} (h : cfg.wellFormed = true) :
    ∀ x ∈ cfg.modelId, x.toNat ≤ 0x7F := by
  simp only [Config.wellFormed, Bool.and_eq_true, List.all_eq_true, decide_eq_true_iff] at h
  obtain ⟨⟨⟨hid, -⟩, -⟩, -⟩ := h
  exact hid

section
variable {cfg : Config} {i : Instr} {frame : Bytes}

/-- Only builders compose a frame. -/
theorem Composes.op (h : Composes cfg i frame) : i.op = .buildRq1 ∨ i.op = .buildDt1 ∨ i.op = .buildIdReq := by
  cases h <;> simp [Instr.op]

/-- A composed frame runs from `0xF0` to `0xF7`, and is 7-bit between on a well-formed configuration and from 7-bit
data (20_memory.md R32). -/
theorem Composes.framed (h : Composes cfg i frame) :
    ∃ inner : Bytes, frame = 0xF0 :: (inner ++ [0xF7])
      ∧ (cfg.wellFormed = true → (∀ x ∈ i.byteOperand, x.toNat ≤ 0x7F) → ∀ x ∈ inner, x.toNat ≤ 0x7F) := by
  cases h with
  | request dev a b =>
    refine ⟨_, parameterFrame_eq _ _ _ _, fun hwf _ =>
      parameterInterior_sevenBit (modelId_sevenBit_of_wellFormed hwf) (by decide) ?_⟩
    exact List.forall_mem_append.mpr ⟨fun _ => packAddress_sevenBit, fun _ => packAddress_sevenBit⟩
  | dataSet dev a bytes =>
    refine ⟨_, parameterFrame_eq _ _ _ _, fun hwf hdata =>
      parameterInterior_sevenBit (modelId_sevenBit_of_wellFormed hwf) (by decide) ?_⟩
    exact List.forall_mem_append.mpr ⟨fun _ => packAddress_sevenBit, hdata⟩
  | inquiry => exact ⟨[0x7E, 0x7F, 0x06, 0x01], rfl, fun _ _ => by decide⟩

end

/-! ### The response of a command other than FEED -/

/-- The responses a command other than FEED can end with, each beside its status. -/
inductive PureResult (cfg : Config) (i : Instr) : Response → Prop
  | number (hst : commandStatus i = .ok) (v : Word) :
    PureResult cfg i { Response.noValue with status := some 0x0, rv := some v }
  | bytes (hst : commandStatus i = .ok) (v : Bytes) :
    PureResult cfg i { Response.noValue with status := some 0x0, rb := some v }
  | composed (hst : commandStatus i = .ok) (frame : Bytes) (hframe : Composes cfg i frame) :
    PureResult cfg i
      { Response.noValue with status := some 0x0, frame := some frame, wire := some (pad4 frame) }
  | notIdentity (hst : commandStatus i = .ok) :
    PureResult cfg i { Response.noValue with status := some 0x0, idv := some false }
  | identity (hst : commandStatus i = .ok) (r : Identity) :
    PureResult cfg i
      { Response.noValue with
        status := some 0x0, idv := some true, idDev := some r.deviceId, idMfr := some r.manufacturerId,
        idFam := some r.family, idMdl := some r.model, idVer := some r.version }
  | error (st : Status) (hst : commandStatus i = st)
      (herr : st = .indexOutOfRange ∨ st = .identityNotEstablished ∨ st = .illegalCommand) :
    PureResult cfg i { Response.noValue with status := some st.code }

/-- Every command other than FEED ends with one of these responses. -/
theorem pureResult (cfg : Config) {i : Instr} (h : ∀ bytes, i ≠ .feed bytes) :
    PureResult cfg i (pureResponse cfg i) := by
  cases i with
  | feed bytes => exact absurd rfl (h bytes)
  | pack7 | nibSplit => exact .bytes rfl _
  | checksum => exact .number rfl _
  | buildIdReq => exact .composed rfl _ .inquiry
  | packRuns g w a =>
    rw [pureResponse]
    split
    case isTrue hr => exact .bytes (by simp [commandStatus, Instr.wellFormed, packRunsInRange_iff.mp hr]) _
    case isFalse hr =>
      refine .error .illegalCommand ((commandStatus_eq_illegalCommand_iff _).mpr ?_) (by simp)
      exact decide_eq_false (hr ∘ packRunsInRange_iff.mpr)
  | unpack128 bytes =>
    rw [pureResponse]
    split
    case isTrue hr => exact .number (by simp [commandStatus, Instr.wellFormed, unpackInRange_iff.mp hr]) _
    case isFalse hr =>
      refine .error .illegalCommand ((commandStatus_eq_illegalCommand_iff _).mpr ?_) (by simp)
      exact decide_eq_false (hr ∘ unpackInRange_iff.mpr)
  | encColor bytes =>
    rw [pureResponse]
    split
    case h_1 hr =>
      have hlen : bytes.length = 3 := by
        by_contra hne
        simp [colorChannels_eq_none.mpr hne] at hr
      exact .bytes (by simp [commandStatus, Instr.wellFormed, hlen]) _
    case h_2 hr =>
      refine .error .illegalCommand ((commandStatus_eq_illegalCommand_iff _).mpr ?_) (by simp)
      exact decide_eq_false (colorChannels_eq_none.mp hr)
  | addrUc b =>
    rw [pureResponse]
    split
    case h_1 hr =>
      have hb : ¬ 4 < b.toNat := fun hb => by simp [userColorIndex_eq_none.mpr hb] at hr
      exact .number (by simp [commandStatus, hb]) _
    case h_2 hr => exact .error .indexOutOfRange (if_pos (userColorIndex_eq_none.mp hr)) (.inl rfl)
  | buildRq1 dv dev a b =>
    cases dv with
    | true => exact .composed rfl _ (.request dev a b)
    | false => exact .error .identityNotEstablished rfl (by simp)
  | buildDt1 dv dev a bytes =>
    cases dv with
    | true => exact .composed rfl _ (.dataSet dev a bytes)
    | false => exact .error .identityNotEstablished rfl (by simp)
  | decodeId bytes =>
    rw [pureResponse]
    split
    · exact .notIdentity rfl
    · exact .identity rfl _

namespace PureResult

variable {cfg : Config} {i : Instr} {r : Response}

theorem status_eq (h : PureResult cfg i r) : r.status = some (commandStatus i).code := by
  cases h with
  | number hst | bytes hst | composed hst | notIdentity hst | identity hst => rw [hst]; rfl
  | error st hst => rw [hst]

/-- Only FEED writes `FV` (10_state.md R22). -/
theorem fv_eq_none (h : PureResult cfg i r) : r.fv = none := by
  cases h <;> rfl

/-- A value in `FRAME` is the frame of a builder (10_state.md R22). -/
theorem composes_of_frame {frame : Bytes} (h : PureResult cfg i r) (hf : r.frame = some frame) :
    Composes cfg i frame := by
  cases h with
  | composed _ f hframe => exact Option.some.inj hf ▸ hframe
  | number | bytes | notIdentity | identity | error => cases hf

/-- A value in `WIRE` is the padded frame of a builder (42_messagebuilder.md R69). -/
theorem composes_of_wire {wire : Bytes} (h : PureResult cfg i r) (hw : r.wire = some wire) :
    ∃ frame, Composes cfg i frame ∧ r.frame = some frame ∧ wire = pad4 frame := by
  cases h with
  | composed _ f hframe => exact ⟨f, hframe, rfl, (Option.some.inj hw).symm⟩
  | number | bytes | notIdentity | identity | error => cases hw

/-- An error status stands alone, and is not FEED's (60_exceptions.md R90). -/
theorem eq_of_error {code : BitVec 4} (h : PureResult cfg i r) (hcode : r.status = some code) (hne : code ≠ 0x0) :
    r = { Response.noValue with status := some code } ∧ code ≠ 0x1 := by
  cases h with
  | error st _ herr =>
    obtain rfl : st.code = code := Option.some.inj hcode
    exact ⟨rfl, by rcases herr with rfl | rfl | rfl <;> decide⟩
  | number | bytes | composed | notIdentity | identity => exact absurd (Option.some.inj hcode).symm hne

end PureResult

/-! ### The ends of FEED -/

/-- What FEED of a fragment that is not refused can leave: the fragment dropped, kept, or with it the buffer emitted or
rejected (43_frameassembler.md R77 to R85). -/
inductive FeedEnd (fragment : Bytes) (s : State) : State → Prop
  | dropped (hdrop : ∀ buf, ¬ TakenInto s fragment buf) :
    FeedEnd fragment s { s with resp := { Response.noValue with status := some 0x0, fv := some false } }
  | kept (buf : Bytes) (htaken : TakenInto s fragment buf) (hfits : WithinCap s.cfg buf)
      (hend : (0xF7 : Byte) ∉ fragment) :
    FeedEnd fragment s
      { s with asm := .collecting, buf := buf,
               resp := { Response.noValue with status := some 0x0, fv := some false } }
  | emitted (buf : Bytes) (htaken : TakenInto s fragment buf) (hfits : WithinCap s.cfg buf)
      (hend : (0xF7 : Byte) ∈ fragment) (hok : AcceptedFrame s.cfg (trimPadding buf)) :
    FeedEnd fragment s
      { s with asm := .idle, buf := [],
               resp := { Response.noValue with
                 status := some 0x0, frame := some (trimPadding buf), fv := some true } }
  | rejected (buf : Bytes) (htaken : TakenInto s fragment buf) (hfits : WithinCap s.cfg buf)
      (hend : (0xF7 : Byte) ∈ fragment) (hbad : ¬ AcceptedFrame s.cfg (trimPadding buf)) :
    FeedEnd fragment s
      { s with asm := .idle, buf := [],
               resp := { Response.noValue with status := some 0x1, fv := some false } }

/-- FEED answers one of its ends, or is refused past a bounded cap (43_frameassembler.md R85). -/
theorem exec_feed_cases (fragment : Bytes) (s : State) :
    (∃ t, exec (.feed fragment) s = .next t ∧ FeedEnd fragment s t)
      ∨ ∃ buf, exec (.feed fragment) s = .refused .bufferCap ∧ ¬ WithinCap s.cfg buf := by
  by_cases htaken : ∃ buf, TakenInto s fragment buf
  · obtain ⟨buf, htaken⟩ := htaken
    rw [exec_feed_of_taken htaken]
    obtain ⟨h, hcap⟩ | ⟨h, hfits, hend⟩ | ⟨h, hfits, hend, hok⟩ | ⟨h, hfits, hend, hbad⟩ :=
      takeFragment_cases fragment buf s
    · exact .inr ⟨buf, h, hcap⟩
    · exact .inl ⟨_, h, .kept buf htaken hfits hend⟩
    · exact .inl ⟨_, h, .emitted buf htaken hfits hend hok⟩
    · exact .inl ⟨_, h, .rejected buf htaken hfits hend hbad⟩
  · have hdrop := not_exists.mp htaken
    exact .inl ⟨_, exec_feed_of_not_taken hdrop, .dropped hdrop⟩

/-- What FEED leaves when it answers a next state. -/
theorem feedEnd_of_exec {fragment : Bytes} {s t : State} (h : exec (.feed fragment) s = .next t) :
    FeedEnd fragment s t := by
  obtain ⟨u, hu, hend⟩ | ⟨-, hrefused, -⟩ := exec_feed_cases fragment s
  · cases hu.symm.trans h
    exact hend
  · cases hrefused.symm.trans h

namespace FeedEnd

variable {fragment : Bytes} {s t : State}

/-- FEED writes OK or FRAME_FORMAT_ERROR (43_frameassembler.md R83, R84). -/
theorem status_eq (h : FeedEnd fragment s t) :
    t.resp.status = some Status.ok.code ∨ t.resp.status = some Status.frameFormatError.code := by
  cases h with
  | dropped | kept | emitted => exact .inl rfl
  | rejected => exact .inr rfl

theorem wire_eq_none (h : FeedEnd fragment s t) : t.resp.wire = none := by
  cases h <;> rfl

theorem cfg_eq (h : FeedEnd fragment s t) : t.cfg = s.cfg := by
  cases h <;> rfl

end FeedEnd

/-- Everything an instruction that answers a next state can have done: written a response, or ended a FEED. -/
theorem exec_next_cases {i : Instr} {s t : State} (h : exec i s = .next t) :
    (∃ r, (∀ bytes, i ≠ .feed bytes) ∧ PureResult s.cfg i r ∧ t = { s with resp := r })
      ∨ ∃ bytes, i = .feed bytes ∧ FeedEnd bytes s t := by
  by_cases hfeed : ∃ bytes, i = .feed bytes
  · obtain ⟨bytes, rfl⟩ := hfeed
    exact .inr ⟨bytes, rfl, feedEnd_of_exec h⟩
  · have hpure : ∀ bytes, i ≠ .feed bytes := not_exists.mp hfeed
    exact .inl ⟨_, hpure, pureResult s.cfg hpure, Host.Outcome.next.inj (h.symm.trans (exec_pure hpure s))⟩

end Sys2Proof.Machine
end

section
/-! The statements about every command: what each writes, when it errs, and what it leaves unchanged (10_state.md R22 to
R24, 20_memory.md R34, 60_exceptions.md R90 to R97). -/

namespace Sys2Proof

open Machine

/-- Only a bounded cap is passed (43_frameassembler.md R85). -/
theorem exists_bufCap_of_not_withinCap {cfg : Config} {buf : Bytes} (h : ¬ WithinCap cfg buf) :
    ∃ cap, cfg.bufCap = some cap := by
  by_contra hunbounded
  exact h fun cap hcap => absurd ⟨cap, hcap⟩ hunbounded

section
variable {i : Instr} {s t : State}

/-- An error status other than FRAME_FORMAT_ERROR is the status of the command's own checks (60_exceptions.md R92, R94,
R95). -/
theorem exec_status_eq_iff (h : exec i s = .next t) {st : Status} (hok : st ≠ .ok) (hformat : st ≠ .frameFormatError) :
    t.resp.status = some st.code ↔ commandStatus i = st := by
  obtain ⟨r, -, hr, rfl⟩ | ⟨bytes, rfl, hend⟩ := exec_next_cases h
  · change r.status = _ ↔ _
    rw [hr.status_eq, Option.some_inj, Status.code_injective.eq_iff]
  · have hfeed : commandStatus (.feed bytes) = .ok := rfl
    have hne : t.resp.status ≠ some st.code := by
      rcases hend.status_eq with hst | hst <;> rw [hst, Ne, Option.some_inj]
      · exact fun hc => hok (Status.code_injective hc).symm
      · exact fun hc => hformat (Status.code_injective hc).symm
    exact iff_of_false hne (hfeed ▸ hok.symm)

/-- Only FEED writes FRAME_FORMAT_ERROR (60_exceptions.md R93). -/
theorem exists_feed_of_frameFormatError (h : exec i s = .next t) (hst : t.resp.status = some 0x1) :
    ∃ bytes, i = .feed bytes := by
  obtain ⟨r, -, hr, rfl⟩ | ⟨bytes, rfl, -⟩ := exec_next_cases h
  · exact absurd rfl (hr.eq_of_error hst (by decide)).2
  · exact ⟨bytes, rfl⟩

/-- A command answers a next state, or is a FEED refused past a bounded cap (43_frameassembler.md R85). -/
theorem exec_next_or_refused (i : Instr) (s : State) :
    (∃ t, exec i s = .next t)
      ∨ ∃ bytes cap, i = .feed bytes ∧ s.cfg.bufCap = some cap ∧ exec i s = .refused .bufferCap := by
  by_cases hfeed : ∃ bytes, i = .feed bytes
  · obtain ⟨bytes, rfl⟩ := hfeed
    obtain ⟨t, ht, -⟩ | ⟨buf, hrefused, hcap⟩ := exec_feed_cases bytes s
    · exact .inl ⟨t, ht⟩
    · obtain ⟨cap, hcap⟩ := exists_bufCap_of_not_withinCap hcap
      exact .inr ⟨bytes, cap, rfl, hcap, hrefused⟩
  · exact .inl ⟨_, exec_pure (not_exists.mp hfeed) s⟩

/-- No command writes the configuration (10_state.md R19). -/
theorem exec_cfg (h : exec i s = .next t) : t.cfg = s.cfg := by
  obtain ⟨r, -, -, rfl⟩ | ⟨bytes, -, hend⟩ := exec_next_cases h
  · rfl
  · exact hend.cfg_eq

/-- Only a FEED writes the assembler (10_state.md R16, R17). -/
theorem exec_assembler (h : exec i s = .next t) (hpure : ∀ bytes, i ≠ .feed bytes) : t.asm = s.asm ∧ t.buf = s.buf := by
  obtain ⟨r, -, -, rfl⟩ | ⟨bytes, hi, -⟩ := exec_next_cases h
  · exact ⟨rfl, rfl⟩
  · exact absurd hi (hpure bytes)

/-- A value in `WIRE` is the padded frame of a builder, and leaves `ASM` as it was (42_messagebuilder.md
R69). -/
theorem composes_of_exec_wire {wire : Bytes} (h : exec i s = .next t) (hw : t.resp.wire = some wire) :
    ∃ frame, Composes s.cfg i frame ∧ t.resp.frame = some frame ∧ wire = pad4 frame ∧ t.asm = s.asm := by
  obtain ⟨r, -, hr, rfl⟩ | ⟨bytes, -, hend⟩ := exec_next_cases h
  · obtain ⟨frame, hframe, hf, hpad⟩ := hr.composes_of_wire hw
    exact ⟨frame, hframe, hf, hpad, rfl⟩
  · simp [hend.wire_eq_none] at hw

end

/-- A composed frame is what emit processing accepts, under 7-bit data where the interior is checked
(43_frameassembler.md R83). -/
theorem acceptedFrame_of_composes {cfg : Config} {i : Instr} {frame : Bytes} (hwf : cfg.wellFormed = true)
    (hframe : Composes cfg i frame) (hdata : cfg.checkInterior = true → ∀ x ∈ i.byteOperand, x.toNat ≤ 0x7F) :
    AcceptedFrame cfg frame := by
  obtain ⟨inner, hf, hseven⟩ := hframe.framed
  exact ⟨inner, hf, fun hcheck => hseven hwf (hdata hcheck)⟩

/-- What taking a fragment leaves depends on the fragment by its terminator alone, and on the state by what no FEED
writes. -/
theorem takeFragment_congr {fragment other buf : Bytes} {s u : State}
    (hend : (0xF7 : Byte) ∈ fragment ↔ (0xF7 : Byte) ∈ other) (hcfg : u.cfg = s.cfg) (hinputs : u.inputs = s.inputs) :
    takeFragment fragment buf s = takeFragment other buf u := by
  obtain ⟨asm, buf', cfg, resp, inputs⟩ := s
  obtain ⟨asm', buf'', _, resp', _⟩ := u
  obtain rfl := hcfg
  obtain rfl := hinputs
  have hcontains : fragment.contains sysexEnd = other.contains sysexEnd := by
    rw [Bool.eq_iff_iff, List.contains_iff_mem, List.contains_iff_mem]
    exact hend
  unfold takeFragment
  rw [hcontains]
  rfl

/-- No command reads the response an earlier one left (10_state.md R24). -/
theorem exec_setResp (i : Instr) (s : State) (r : Response) : exec i { s with resp := r } = exec i s := by
  by_cases hfeed : ∃ bytes, i = .feed bytes
  · obtain ⟨bytes, rfl⟩ := hfeed
    by_cases htaken : ∃ buf, TakenInto s bytes buf
    · obtain ⟨buf, htaken⟩ := htaken
      rw [exec_feed_of_taken htaken, exec_feed_of_taken (s := { s with resp := r }) htaken]
      exact takeFragment_congr .rfl rfl rfl
    · rw [exec_feed_of_not_taken (not_exists.mp htaken),
        exec_feed_of_not_taken (s := { s with resp := r }) (not_exists.mp htaken)]
  · rw [exec_pure (not_exists.mp hfeed), exec_pure (not_exists.mp hfeed)]

/-- A wire holds its frame's terminator. -/
theorem end_mem_pad4 (inner : Bytes) : (0xF7 : Byte) ∈ pad4 (0xF0 :: (inner ++ [0xF7])) := by
  simp [pad4]

/-- Emit processing trims the padding of a wire and no byte of its frame (43_frameassembler.md R82). -/
theorem trimPadding_pad4 {frame : Bytes} (h : frame.getLast? ≠ some 0x00) : trimPadding (pad4 frame) = frame :=
  trimPadding_eq_of_append_replicate _ h

/-- A fragment that starts a frame in `Idle` becomes the buffer (43_frameassembler.md R79). -/
theorem takenInto_idle {s : State} {fragment : Bytes} (hidle : s.asm = .idle) (hhead : fragment.head? = some 0xF0) :
    TakenInto s fragment fragment :=
  .inl ⟨hidle, hhead, rfl⟩

/-! ### The obligations -/

/-- Settles O25: `WIRE` holds what `pad4` makes of a builder's frame. -/
theorem everyComposedFrameIsPadded : Obligations.EveryComposedFrameIsPadded := by
  intro i s t wire h hw
  obtain ⟨frame, hframe, hf, rfl, -⟩ := composes_of_exec_wire h hw
  exact ⟨hframe.op, frame, hf, paddedTo4_pad4 frame⟩

/-- Settles O26: a builder is no FEED, so its `FRAME` is a composed one. -/
theorem buildersComposeConformingFrames : Obligations.BuildersComposeConformingFrames := by
  intro i s t frame hwf hop hdata h hf
  obtain ⟨r, -, hr, rfl⟩ | ⟨bytes, rfl, -⟩ := exec_next_cases h
  · obtain ⟨inner, hinner, hseven⟩ := (hr.composes_of_frame hf).framed
    exact ⟨inner, hinner, hseven hwf hdata⟩
  · simp [Instr.op] at hop

/-- Settles O31: of all the ends of a command only an emission writes `FV = 1`. -/
theorem emittedFramesAreFramed : Obligations.EmittedFramesAreFramed := by
  intro i s t h hfv
  obtain ⟨r, -, hr, rfl⟩ | ⟨bytes, -, hend⟩ := exec_next_cases h
  · exact absurd (hr.fv_eq_none.symm.trans hfv) (by simp)
  · cases hend with
    | emitted buf _ _ _ hok => exact ⟨trimPadding buf, rfl, hok, rfl, rfl⟩
    | dropped | kept | rejected => simp at hfv

/-- Settles O32: the first fragment is kept as the buffer, the second is appended to it, and the terminator of the
concatenation is the second's. -/
theorem fragmentsFedInTurnAreTheirConcatenation : Obligations.FragmentsFedInTurnAreTheirConcatenation := by
  intro s t first second hidle hhead hnoEnd hne hrestart hfits h
  have hfirst : WithinCap s.cfg first := fun cap hcap => by
    have hlen := hfits cap hcap
    rw [List.length_append] at hlen
    omega
  have hkept := (exec_feed_of_taken (takenInto_idle hidle hhead)).trans (takeFragment_of_not_mem_end hfirst hnoEnd)
  have ht := Host.Outcome.next.inj (h.symm.trans hkept)
  have htaken : TakenInto t second (first ++ second) := by
    rw [ht]
    exact .inr (.inr ⟨rfl, hne, hrestart, rfl⟩)
  have hwhole : (first ++ second).head? = some 0xF0 := by rw [List.head?_append, hhead]; rfl
  rw [exec_feed_of_taken htaken, exec_feed_of_taken (takenInto_idle hidle hwhole)]
  exact takeFragment_congr (by rw [List.mem_append, or_iff_right hnoEnd]) (by rw [ht]) (by rw [ht])

/-- Settles O33: the wire is taken as the buffer, trimming it gives the composed frame back, and emit processing accepts
that frame. -/
theorem feedingAComposedWireEmitsItsFrame : Obligations.FeedingAComposedWireEmitsItsFrame := by
  intro i s t frame wire hwf hidle hdata h hf hw hfits
  obtain ⟨frame', hframe, hf', rfl, hasm⟩ := composes_of_exec_wire h hw
  obtain rfl : frame' = frame := Option.some.inj (hf'.symm.trans hf)
  have hcfg : t.cfg = s.cfg := exec_cfg h
  have hok : AcceptedFrame t.cfg frame' := hcfg ▸ acceptedFrame_of_composes hwf hframe hdata
  have htrim : trimPadding (pad4 frame') = frame' := trimPadding_pad4 hok.getLast?
  obtain ⟨hhead, hend⟩ : (pad4 frame').head? = some 0xF0 ∧ (0xF7 : Byte) ∈ pad4 frame' := by
    obtain ⟨inner, rfl, -⟩ := hok
    exact ⟨rfl, end_mem_pad4 inner⟩
  rw [exec_feed_of_taken (takenInto_idle (hasm.trans hidle) hhead),
    takeFragment_of_accepted (hcfg.symm ▸ hfits) hend (htrim.symm ▸ hok), htrim]

/-- Settles O35: a command other than FEED always ends, and FEED ends or is refused past a bounded cap. -/
theorem onlyFeedUnderABoundedCapIsRefusedByExec : Obligations.OnlyFeedUnderABoundedCapIsRefusedByExec := by
  intro i s
  obtain ⟨t, hnext⟩ | ⟨bytes, cap, hi, hcap, hrefused⟩ := exec_next_or_refused i s
  · refine ⟨fun _ => ⟨t, hnext⟩, fun r hr => ?_, fun r hr => ?_⟩
    · cases hnext.symm.trans hr
    · cases hnext.symm.trans hr
  · refine ⟨fun hno => ?_, fun r hr => ?_, fun r hr => ?_⟩
    · rcases hno with hpure | hunbounded
      · exact absurd hi (hpure bytes)
      · cases hunbounded.symm.trans hcap
    · cases hrefused.symm.trans hr
    · cases hrefused.symm.trans hr
      exact ⟨bytes, cap, hi, hcap, rfl⟩

/-- Settles O36: the response is a function of the command and the configuration. -/
theorem commandsOtherThanFeedArePure : Obligations.CommandsOtherThanFeedArePure := by
  intro i s u hpure hcfg
  refine ⟨pureResponse s.cfg i, exec_pure hpure s, ?_⟩
  rw [hcfg]
  exact exec_pure hpure u

/-- Settles O37: no response is a function of the response before it, and FEED looks at the assembler and the
configuration alone. -/
theorem earlierResponsesAreNeverRead : Obligations.EarlierResponsesAreNeverRead :=
  exec_setResp

/-- Settles O44: three errors are statuses of a command's own checks, and FRAME_FORMAT_ERROR is none of these. -/
theorem errorsComeFromTheirCommands : Obligations.ErrorsComeFromTheirCommands := by
  intro i s t h
  refine ⟨exists_feed_of_frameFormatError h, ?_, ?_, ?_⟩
  · rw [← commandStatus_eq_indexOutOfRange_iff]
    exact exec_status_eq_iff h (st := .indexOutOfRange) (by decide) (by decide)
  · rw [← commandStatus_eq_identityNotEstablished_iff]
    exact exec_status_eq_iff h (st := .identityNotEstablished) (by decide) (by decide)
  · rw [← commandStatus_eq_illegalCommand_iff]
    exact exec_status_eq_iff h (st := .illegalCommand) (by decide) (by decide)

/-- Settles O45: an illegal word and a command's own checks leave the error status alone, and of the ends of FEED only
the rejection has an error status. -/
theorem errorsWriteNothingElse : Obligations.ErrorsWriteNothingElse := by
  intro c s t code h hcode hne
  obtain ⟨hrefused, -⟩ | ⟨hillegal, -⟩ | ⟨i, hexec, -⟩ := runCommand_cases c s
  · cases hrefused.symm.trans h
  · cases hillegal.symm.trans h
    obtain rfl : 0xF = code := Option.some.inj hcode
    rfl
  · obtain ⟨r, -, hr, rfl⟩ | ⟨bytes, -, hend⟩ := exec_next_cases (hexec.symm.trans h)
    · obtain ⟨rfl, hformat⟩ := hr.eq_of_error hcode hne
      rw [if_neg hformat]
    · cases hend with
      | rejected =>
        obtain rfl : 0x1 = code := Option.some.inj hcode
        rfl
      | dropped | kept | emitted => exact absurd (Option.some.inj hcode).symm hne

end Sys2Proof
end

section
/-! One step of the machine (10_state.md R13, R23, 60_exceptions.md R98, 70_reset_and_hazards.md R103), and what every
step keeps (10_state.md R17, R19, R20). -/

namespace Sys2Proof.Machine

/-! ### Serving the oldest input -/

/-- A step serves the oldest input in the state without it (10_state.md R13). -/
theorem step_of_inputs {s : State} {input : HostInput} {rest : List HostInput} (h : s.inputs = input :: rest) :
    step s = serveInput input { s with inputs := rest } := by
  simp only [step, h]
  rfl

/-- A command that fits the block and decodes is run as its own meaning (60_exceptions.md R98 item 4). -/
theorem runCommand_of_decode {c : Command} {i : Instr} {s : State} (hfits : c.bytes.length ≤ s.cfg.sMax)
    (hd : decode c = .instr i) : runCommand c s = exec i s := by
  obtain ⟨-, hlong⟩ | ⟨-, -, _, hillegal⟩ | ⟨j, hrun, -, hj⟩ := runCommand_cases c s
  · exact absurd hlong (Nat.not_lt.mpr hfits)
  · cases hillegal.symm.trans hd
  · cases hj.symm.trans hd
    exact hrun

/-- A command whose `S` is too long is refused first (60_exceptions.md R98 item 1). -/
theorem runCommand_of_overlong {c : Command} {s : State} (h : s.cfg.sMax < c.bytes.length) :
    runCommand c s = .refused .operandTooLong :=
  if_pos (decide_eq_true h)

/-! ### The responses a block can hold -/

/-- No value in any field (10_state.md R27). -/
theorem responseInv_noValue : ResponseInv Response.noValue := by
  simp [ResponseInv, Response.noValue]

/-- An error status alone (60_exceptions.md R90). -/
theorem responseInv_error {st : Status}
    (h : st = .indexOutOfRange ∨ st = .identityNotEstablished ∨ st = .illegalCommand) :
    ResponseInv { Response.noValue with status := some st.code } := by
  rcases h with rfl | rfl | rfl <;> simp [ResponseInv, ProducedStatus, Response.noValue, Status.code]

/-- The response of a command other than FEED. -/
theorem PureResult.responseInv {cfg : Config} {i : Instr} {r : Response} (h : PureResult cfg i r) : ResponseInv r := by
  cases h with
  | error st _ herr => exact responseInv_error herr
  | number | bytes | composed | notIdentity | identity => simp [ResponseInv, ProducedStatus, Response.noValue]

/-- The response of FEED (43_frameassembler.md R83 to R85). -/
theorem FeedEnd.responseInv {fragment : Bytes} {s t : State} (h : FeedEnd fragment s t) : ResponseInv t.resp := by
  cases h <;> simp [ResponseInv, ProducedStatus, Response.noValue]

/-! ### The assembler -/

/-- `Idle` with an empty buffer (10_state.md R17). -/
theorem assemblerInv_idle {s : State} (hasm : s.asm = .idle) (hbuf : s.buf = []) : AssemblerInv s := by
  refine ⟨fun _ => hbuf, fun hcoll => ?_, fun cap _ => by simp [hbuf]⟩
  cases hasm.symm.trans hcoll

/-- `Collecting` with a started and unterminated buffer within the cap (10_state.md R17, 43_frameassembler.md R79,
R85). -/
theorem assemblerInv_collecting {s : State} (hasm : s.asm = .collecting) (hhead : s.buf.head? = some 0xF0)
    (hend : (0xF7 : Byte) ∉ s.buf) (hfits : WithinCap s.cfg s.buf) : AssemblerInv s := by
  refine ⟨fun hidle => ?_, fun _ => ⟨?_, hhead, hend⟩, hfits⟩
  · cases hasm.symm.trans hidle
  · obtain ⟨tail, htail⟩ := List.head?_eq_some_iff.mp hhead
    simp [htail]

/-- The invariant of the assembler speaks of `ASM`, `BUF` and the configuration alone. -/
theorem AssemblerInv.of_eq {s t : State} (h : AssemblerInv s) (hasm : t.asm = s.asm) (hbuf : t.buf = s.buf)
    (hcfg : t.cfg = s.cfg) : AssemblerInv t := by
  unfold AssemblerInv
  rw [hasm, hbuf, hcfg]
  exact h

/-- A buffer that a fragment is taken into starts with `0xF0`, and holds `0xF7` only if the fragment does
(43_frameassembler.md R79, R80). -/
theorem AssemblerInv.takenInto {s : State} {fragment buf : Bytes} (hinv : AssemblerInv s)
    (h : TakenInto s fragment buf) :
    buf.head? = some 0xF0 ∧ ((0xF7 : Byte) ∉ fragment → (0xF7 : Byte) ∉ buf) := by
  obtain ⟨-, hhead, rfl⟩ | ⟨-, -, hhead, rfl⟩ | ⟨hcoll, -, -, rfl⟩ := h
  · exact ⟨hhead, id⟩
  · exact ⟨hhead, id⟩
  · obtain ⟨-, hcollecting, -⟩ := hinv
    obtain ⟨-, hhead, hnoEnd⟩ := hcollecting hcoll
    refine ⟨by rw [List.head?_append, hhead]; rfl, fun hfragment => ?_⟩
    exact fun hend => (List.mem_append.mp hend).elim hnoEnd hfragment

/-- FEED keeps the assembler's invariant. -/
theorem FeedEnd.assemblerInv {fragment : Bytes} {s t : State} (h : FeedEnd fragment s t) (hinv : AssemblerInv s) :
    AssemblerInv t := by
  cases h with
  | dropped => exact hinv.of_eq rfl rfl rfl
  | kept buf htaken hfits hend =>
    obtain ⟨hhead, hnoEnd⟩ := hinv.takenInto htaken
    exact assemblerInv_collecting rfl hhead (hnoEnd hend) hfits
  | emitted | rejected => exact assemblerInv_idle rfl rfl

/-- Every command keeps the invariant. -/
theorem exec_keeps_inv {i : Instr} {s t : State} (hinv : Inv s) (h : exec i s = .next t) : Inv t := by
  obtain ⟨hwf, hasm, -⟩ := hinv
  refine ⟨exec_cfg h ▸ hwf, ?_⟩
  obtain ⟨r, -, hr, rfl⟩ | ⟨bytes, -, hend⟩ := exec_next_cases h
  · exact ⟨hasm.of_eq rfl rfl rfl, hr.responseInv⟩
  · exact ⟨hend.assemblerInv hasm, hend.responseInv⟩

/-- The invariant speaks of no input. -/
theorem Inv.setInputs {s : State} (h : Inv s) (rest : List HostInput) : Inv { s with inputs := rest } := h

/-- The constructed block meets the invariant (10_state.md R20, R27). -/
theorem inv_construct {c : Config} (h : c.wellFormed = true) : Inv (State.construct c) :=
  ⟨h, assemblerInv_idle rfl rfl, responseInv_noValue⟩

/-- A slot id below 0xEFFF8 meets the last condition of 10_state.md R20 beside the other defaults. -/
theorem default_slotAddress_lt {slot : Nat} (h : slot < 0xEFFF8) : Config.default.slotAddress slot < 2 ^ 28 := by
  simp only [Config.slotAddress, Config.default, BitVec.reduceToNat]
  omega

/-- The defaults are well-formed, whatever the `OPEN` parameters are (00_scope.md R7, 10_state.md R20). -/
theorem default_wellFormed : Config.default.wellFormed = true := by
  have hslots : ∀ slot ∈ Config.default.userPaletteSlotIndex.toList, Config.default.slotAddress slot < 2 ^ 28 := by
    change ∀ slot ∈ 10 :: ([0, 1, 2, 3] : List (Fin 4)).map fun k => (Config.openSlot k).val, _
    rw [List.forall_mem_cons, List.forall_mem_map]
    exact ⟨default_slotAddress_lt (by decide), fun k _ => default_slotAddress_lt (Config.openSlot k).isLt⟩
  simp only [Config.wellFormed, Bool.and_eq_true, List.all_eq_true, decide_eq_true_iff]
  exact ⟨⟨⟨by decide, rfl⟩, Nat.le_add_left 16 _⟩, hslots⟩

end Sys2Proof.Machine

namespace Sys2Proof

open Machine

/-! ### The obligations -/

/-- Settles O6: the oldest input is served, and a command that fits and decodes runs. -/
theorem stepRunsTheDecodedCommand : Obligations.StepRunsTheDecodedCommand := by
  intro s c rest hin
  have hstep : step s = runCommand c { s with inputs := rest } := step_of_inputs hin
  exact ⟨hstep, fun i hfits hd => hstep.trans (runCommand_of_decode hfits hd)⟩

/-- Settles O8: the bound on `S` is the first check. -/
theorem overlongOperandIsRefused : Obligations.OverlongOperandIsRefused :=
  fun _ _ _ hin hlong => (step_of_inputs hin).trans (runCommand_of_overlong hlong)

/-- Settles O9: the reset input clears the assembler and the response in the state without it. -/
theorem resetInputClearsAssemblerAndResponse : Obligations.ResetInputClearsAssemblerAndResponse :=
  fun _ _ hin => step_of_inputs hin

/-- Settles O10: a read answers the state without the read, or the fault, as the field holds a value or none. -/
theorem readFaultsOnlyWithoutValue : Obligations.ReadFaultsOnlyWithoutValue := by
  intro s f rest hin
  have hstep : step s = serveRead f { s with inputs := rest } := step_of_inputs hin
  obtain ⟨hnext, hvalue⟩ | ⟨hfault, hnone⟩ := serveRead_cases f { s with inputs := rest }
  · exact ⟨fun hnone => absurd hnone hvalue, fun _ _ => hstep.trans hnext⟩
  · exact ⟨fun _ => hstep.trans hfault, fun v hv => by cases hnone.symm.trans hv⟩

/-- Settles O11: a step serves an input, and there is none. -/
theorem nothingHappensBetweenCommands : Obligations.NothingHappensBetweenCommands := by
  intro s hin
  simp only [step, hin]

/-- Settles O20: slot 10 of the defaults, at 0x01000000 + 0x0800 + 10 * 0x0100 + 0x10. -/
theorem userColorZeroHasTheGoldenAddress : Obligations.UserColorZeroHasTheGoldenAddress :=
  exec_addrUc_ofNat 0 State.reset

/-- Settles O38: reset keeps the configuration, a read the whole state, and no command writes the configuration. -/
theorem noStepWritesTheConfiguration : Obligations.NoStepWritesTheConfiguration := by
  intro s t h
  obtain ⟨f, rest, -, -, rfl⟩ | ⟨rest, -, rfl⟩ | ⟨c, rest, -, -, ⟨-, rfl⟩ | ⟨i, -, hexec⟩⟩ := step_cases h
  · rfl
  · rfl
  · rfl
  · have hcfg := exec_cfg hexec
    exact hcfg

/-- Settles O39: a read, an illegal word and every command but FEED leave the assembler as it was. -/
theorem onlyFeedAndResetWriteTheAssembler : Obligations.OnlyFeedAndResetWriteTheAssembler := by
  intro s t h hchange
  have hkept : ¬ (t.asm = s.asm ∧ t.buf = s.buf) := by tauto
  obtain ⟨f, rest, -, -, rfl⟩ | ⟨rest, hin, -⟩ | ⟨c, rest, hin, -, ⟨-, rfl⟩ | ⟨i, hd, hexec⟩⟩ := step_cases h
  · exact absurd ⟨rfl, rfl⟩ hkept
  · exact .inl ⟨rest, hin⟩
  · exact absurd ⟨rfl, rfl⟩ hkept
  · by_cases hfeed : ∃ bytes, i = .feed bytes
    · obtain ⟨bytes, rfl⟩ := hfeed
      exact .inr ⟨c, bytes, rest, hin, hd⟩
    · exact absurd (exec_assembler hexec (not_exists.mp hfeed)) hkept

/-- Settles O40: of the inputs a step serves, a read changes no field the invariant speaks of, reset empties the
assembler and the response, and a command writes a response the block can hold and, if it is FEED, keeps the
assembler's invariant. -/
theorem everyStepKeepsTheInvariant : Obligations.EveryStepKeepsTheInvariant := by
  intro s t hinv h
  have ⟨hwf, hasm, _⟩ := hinv
  obtain ⟨f, rest, -, -, rfl⟩ | ⟨rest, -, rfl⟩ | ⟨c, rest, -, -, ⟨-, rfl⟩ | ⟨i, -, hexec⟩⟩ := step_cases h
  · exact hinv.setInputs rest
  · exact ⟨hwf, assemblerInv_idle rfl rfl, responseInv_noValue⟩
  · exact ⟨hwf, hasm, responseInv_error (st := .illegalCommand) (by simp)⟩
  · exact exec_keeps_inv (hinv.setInputs rest) hexec

/-- Settles O41: the constructed block is `Idle` and empty with no value in its response, and the defaults are
well-formed. -/
theorem resetMeetsTheInvariant : Obligations.ResetMeetsTheInvariant :=
  ⟨fun _ => inv_construct, inv_construct default_wellFormed⟩

/-- Settles O42: the constructed block over the defaults, field by field. -/
theorem resetValuesAreTheSpecs : Obligations.ResetValuesAreTheSpecs :=
  ⟨rfl, rfl, rfl, rfl, rfl, rfl, rfl, rfl, rfl, rfl, rfl, rfl, rfl, Nat.le_add_left 16 _⟩

end Sys2Proof
end

section
/-! Runs of commands (70_reset_and_hazards.md R113): one issued command, the run of a list, and the statements about
runs (43_frameassembler.md R85, 20_memory.md R37). -/

namespace Sys2Proof.Machine

/-! ### One issued command -/

/-- Issuing a command runs it with nothing else pending. -/
theorem issue_eq_runCommand (c : Command) (s : State) : issue c s = runCommand c { s with inputs := [] } := rfl

/-- An instruction whose byte operand fits the block is issued as its own meaning. -/
theorem issue_encode {i : Instr} {s : State} (h : i.byteOperand.length ≤ s.cfg.sMax) :
    issue (encode i) s = exec i { s with inputs := [] } :=
  runCommand_of_decode ((encode_bytes i).symm ▸ h) (decode_encode i)

/-- What an issued command that is not refused has done: an illegal word, or one instruction. -/
theorem issue_next_cases {c : Command} {s t : State} (h : issue c s = .next t) :
    ((∃ why, decode c = .illegal why)
        ∧ t = { s with inputs := [], resp := { Response.noValue with status := some 0xF } })
      ∨ ∃ i, decode c = .instr i ∧ exec i { s with inputs := [] } = .next t := by
  obtain ⟨hrefused, -⟩ | ⟨hillegal, -, hd⟩ | ⟨i, hexec, -, hd⟩ := runCommand_cases c { s with inputs := [] }
  · cases hrefused.symm.trans h
  · exact .inl ⟨hd, Host.Outcome.next.inj (h.symm.trans hillegal)⟩
  · exact .inr ⟨i, hd, hexec.symm.trans h⟩

/-- Running a command reads no response (10_state.md R24). -/
theorem runCommand_setResp (c : Command) (s : State) (r : Response) :
    runCommand c { s with resp := r } = runCommand c s := by
  unfold runCommand
  cases decode c with
  | illegal => rfl
  | instr i =>
    simp only [exec_setResp]

/-- Two states that differ at most in their responses and pending inputs. -/
def SameAssembler (s u : State) : Prop :=
  u.asm = s.asm ∧ u.buf = s.buf ∧ u.cfg = s.cfg

theorem SameAssembler.refl (s : State) : SameAssembler s s := ⟨rfl, rfl, rfl⟩

/-- An issued command reads no response and no pending input (10_state.md R24). -/
theorem SameAssembler.issue_eq {s u : State} (h : SameAssembler s u) (c : Command) : issue c u = issue c s := by
  obtain ⟨hasm, hbuf, hcfg⟩ := h
  have hu : ({ u with inputs := [] } : State) = { ({ s with inputs := [] } : State) with resp := u.resp } := by
    rw [hasm, hbuf, hcfg]
  rw [issue_eq_runCommand, issue_eq_runCommand, hu]
  exact runCommand_setResp c _ _

/-- A command that is no FEED leaves the assembler as it was (10_state.md R16, R17). -/
theorem SameAssembler.of_issue {c : Command} {s t u : State} (hc : isFeed c = false) (h : issue c s = .next t)
    (hu : SameAssembler s u) : SameAssembler t u := by
  obtain ⟨-, rfl⟩ | ⟨i, hd, hexec⟩ := issue_next_cases h
  · exact hu
  · have hpure : ∀ bytes, i ≠ .feed bytes := by
      rintro bytes rfl
      simp [isFeed, hd] at hc
    obtain ⟨hasm, hbuf, hcfg⟩ := hu
    obtain ⟨hasm', hbuf'⟩ := exec_assembler hexec hpure
    exact ⟨hasm.trans hasm'.symm, hbuf.trans hbuf'.symm, hcfg.trans (exec_cfg hexec).symm⟩

/-- The response to a fragment without `0xF7` (43_frameassembler.md R85). -/
theorem FeedEnd.resp_of_not_mem_end {fragment : Bytes} {s t : State} (h : FeedEnd fragment s t)
    (hend : (0xF7 : Byte) ∉ fragment) : t.resp = { Response.noValue with status := some 0x0, fv := some false } := by
  cases h with
  | dropped | kept => rfl
  | emitted _ _ _ hmem | rejected _ _ _ hmem => exact absurd hmem hend

/-- An issued FEED ends as FEED does. -/
theorem feedEnd_of_issue {fragment : Bytes} {s t : State} (h : issue (encode (.feed fragment)) s = .next t) :
    FeedEnd fragment { s with inputs := [] } t := by
  obtain ⟨⟨why, hillegal⟩, -⟩ | ⟨i, hd, hexec⟩ := issue_next_cases h
  · cases hillegal.symm.trans (decode_encode _)
  · cases hd.symm.trans (decode_encode _)
    exact feedEnd_of_exec hexec

/-! ### The run of a list -/

/-- A sequence goes on from a next state only (00_scope.md R12). -/
theorem andThen_eq_next {α β : Type} {o : Host.Outcome α Fault Refusal} {k : α → Host.Outcome β Fault Refusal} {b : β}
    (h : andThen o k = .next b) : ∃ a, o = .next a ∧ k a = .next b := by
  cases o with
  | next a => exact ⟨a, rfl, h⟩
  | fault | refused => cases h

/-- A run that ends: its first command ends, and so does the rest. -/
theorem runCommands_cons_iff {c : Command} {cs : List Command} {s t : State} {responses : List Response} :
    runCommands (c :: cs) s = .next (t, responses) ↔
      ∃ (m : State) (rest : List Response),
        issue c s = .next m ∧ runCommands cs m = .next (t, rest) ∧ responses = m.resp :: rest := by
  constructor
  · intro h
    obtain ⟨m, hm, h⟩ := andThen_eq_next h
    obtain ⟨⟨u, rest⟩, hrest, h⟩ := andThen_eq_next h
    cases h
    exact ⟨m, rest, hm, hrest, rfl⟩
  · rintro ⟨m, rest, hm, hrest, rfl⟩
    simp [runCommands, andThen, hm, hrest]

/-- The responses of the FEED commands of a run. -/
def feedResponses (commands : List Command) (responses : List Response) : List Response :=
  ((commands.zip responses).filter fun p => isFeed p.1).map Prod.snd

/-- The run of the FEED commands alone, from any state with the same assembler. -/
theorem runCommands_filter_isFeed {commands : List Command} {s t u : State} {responses : List Response}
    (h : runCommands commands s = .next (t, responses)) (hu : SameAssembler s u) :
    ∃ v, runCommands (commands.filter isFeed) u = .next (v, feedResponses commands responses)
      ∧ SameAssembler t v := by
  induction commands generalizing s u responses with
  | nil =>
    cases h
    exact ⟨u, rfl, hu⟩
  | cons c cs ih =>
    obtain ⟨m, rest, hm, hrest, rfl⟩ := runCommands_cons_iff.mp h
    cases hc : isFeed c with
    | true =>
      obtain ⟨v, hv, hsame⟩ := ih hrest (.refl m)
      refine ⟨v, ?_, hsame⟩
      rw [List.filter_cons_of_pos hc]
      exact runCommands_cons_iff.mpr ⟨m, _, (hu.issue_eq c).trans hm, hv, by simp [feedResponses, hc]⟩
    | false =>
      obtain ⟨v, hv, hsame⟩ := ih hrest (hu.of_issue hc hm)
      refine ⟨v, ?_, hsame⟩
      rw [List.filter_cons_of_neg (by simp [hc]), hv]
      simp [feedResponses, hc]

end Sys2Proof.Machine

namespace Sys2Proof

open Machine

/-! ### The obligations -/

/-- Settles O46, by induction on the fragments: a fragment without `0xF7` is dropped or kept. -/
theorem noTerminatorNoFrame : Obligations.NoTerminatorNoFrame := by
  intro fragments
  induction fragments with
  | nil =>
    intro s t responses _ h
    cases h
    simp
  | cons fragment fragments ih =>
    intro s t responses hnoEnd h
    obtain ⟨hfragment, hfragments⟩ := List.forall_mem_cons.mp hnoEnd
    obtain ⟨m, rest, hm, hrest, rfl⟩ := runCommands_cons_iff.mp h
    have hresp := (feedEnd_of_issue hm).resp_of_not_mem_end hfragment
    exact List.forall_mem_cons.mpr ⟨by simp [hresp, Response.noValue], ih m t rest hfragments hrest⟩

/-- Settles O47: the run of the FEED commands alone, from the same state. -/
theorem otherCommandsChangeNoFeedResult : Obligations.OtherCommandsChangeNoFeedResult := by
  intro commands s t responses h
  obtain ⟨u, hu, hasm, hbuf, -⟩ := runCommands_filter_isFeed h (.refl s)
  exact ⟨u, hu, hasm, hbuf⟩

end Sys2Proof
end

section
/-! The pseudo-command SETCOLOR (30_encoding.md R53). -/

namespace Sys2Proof

open Machine

/-- A byte's nibbles as a word's (40_bytecodec.md R58, R65). -/
theorem nibbleSplit_eq_nibblesOf (x : Byte) : nibbleSplit x.toNat = nibblesOf (x.setWidth 32) := by
  rw [← nibbleSplit_word, BitVec.toNat_setWidth_of_le (by decide)]

/-- ENCCOLOR of three channels (40_bytecodec.md R65). -/
theorem exec_encColor_channels (red green blue : Byte) (s : State) :
    exec (.encColor [red, green, blue]) s =
      .next { s with resp := { Response.noValue with
        status := some 0x0
        rb := some (nibblesOf (red.setWidth 32) ++ nibblesOf (green.setWidth 32)
          ++ nibblesOf (blue.setWidth 32)) } } := by
  simp only [← nibbleSplit_eq_nibblesOf]
  exact exec_pure (by simp) s

/-- Sixteen bytes fit every well-formed block (10_state.md R20). -/
theorem length_le_sMax_of_wellFormed {cfg : Config} (h : cfg.wellFormed = true) {bytes : Bytes}
    (hlen : bytes.length ≤ 16) : bytes.length ≤ cfg.sMax := by
  simp only [Config.wellFormed, Bool.and_eq_true, decide_eq_true_iff] at h
  obtain ⟨⟨-, hmax⟩, -⟩ := h
  exact hlen.trans hmax

section
variable {dv : Bool} {dev : BitVec 7} {index : Word} {rgb : Bytes} {s s1 s2 s3 : State}

/-- SETCOLOR stops after ADDRUC with a status that is not OK (30_encoding.md R53). -/
theorem setColor_of_status_ne_ok (h1 : issue (encode (.addrUc index)) s = .next s1)
    (hst : s1.resp.status ≠ some Status.ok.code) : setColor dv dev index rgb s = .next (s1, [s1.resp]) := by
  simp only [setColor, h1, andThen]
  exact if_pos hst

/-- SETCOLOR's three commands, where each ends with the value that BUILDDT1 takes (30_encoding.md R53). -/
theorem setColor_of_values {address : Word} {data : Bytes} (h1 : issue (encode (.addrUc index)) s = .next s1)
    (hst : s1.resp.status = some Status.ok.code) (hrv : s1.resp.rv = some address)
    (h2 : issue (encode (.encColor rgb)) s1 = .next s2) (hrb : s2.resp.rb = some data)
    (h3 : issue (encode (.buildDt1 dv dev address data)) s2 = .next s3) :
    setColor dv dev index rgb s = .next (s3, [s1.resp, s2.resp, s3.resp]) := by
  simp [setColor, andThen, h1, hst, hrv, h2, hrb, h3]

end

/-- Settles O48: a bad index stops at ADDRUC; otherwise the three commands fit every well-formed block and leave the
values that the next one takes. -/
theorem setColorComposesTheColorFrame : Obligations.SetColorComposesTheColorFrame := by
  constructor
  · intro dv dev index rgb s hindex
    exact setColor_of_status_ne_ok ((issue_encode (Nat.zero_le _)).trans (exec_addrUc_of_four_lt hindex _))
      (by simp [Status.code])
  · intro dev i red green blue s hwf
    have hfits {bytes : Bytes} (hlen : bytes.length ≤ 16) : bytes.length ≤ s.cfg.sMax :=
      length_le_sMax_of_wellFormed hwf hlen
    refine ⟨_, _, _, _, _, _, setColor_of_values (address := BitVec.ofNat 32 (userColorAddress s.cfg i))
        ((issue_encode (Nat.zero_le _)).trans (exec_addrUc_ofNat i _)) rfl rfl
        ((issue_encode (hfits (by simp [Instr.byteOperand]))).trans (exec_encColor_channels red green blue _)) rfl
        ((issue_encode (hfits ?_)).trans (exec_buildDt1_resolved dev _ _ _)), rfl,
      ofNat_userColorAddress_toNat hwf i, rfl, rfl, exec_buildDt1_resolved dev _ _ _, rfl, rfl, rfl⟩
    simp [Instr.byteOperand, nibblesOf]

end Sys2Proof
end
